-- ==== Sys2Proof/Word.lean ====
section
/-!
DEFINITION. The word types of the RMK link codec (00_scope.md R8, R11): a byte is 8 bits, a device address is
16 bits, and every value is unsigned. Lengths, indices and the scan position are natural numbers (R8).
-/

namespace Sys2Proof

/-- A byte (R8). -/
abbrev Byte := BitVec 8

/-- A device address, 16 bits unsigned (R11). -/
abbrev Addr := BitVec 16

end Sys2Proof
end

