-- ==== Sys2Proof/Config.lean ====
section
/-!
DEFINITION. The enumerated types of the rules (00_scope.md R11) and the configuration record `cfg`
(10_state.md R26 to R29), with the wire constants of 00_scope.md R6 kept symbolic, and the size parameters the
source fixes (R5, R7).
-/

namespace Sys2Proof

/-- Message category of a frame (R11; codes in 30_encoding.md R65). -/
inductive Category where
  | command | status | cooperation | extended
deriving DecidableEq, Repr

/-- Frame variant (R11, 30_encoding.md R60). -/
inductive Variant where
  | standard | compatible
deriving DecidableEq, Repr

/-- Message priority (R11; codes in 30_encoding.md R66). -/
inductive Priority where
  | low | normal | high | critical
deriving DecidableEq, Repr

/-- Message kind, the operand of the classifier (41_classifier.md R95; the six named examples, log entry 8). -/
inductive Kind where
  | key | pointerMotion | indicatorState | batteryLevel | configSync | coordination
deriving DecidableEq, Repr

/-- `cfg.CLASS_TABLE`: a total function from kinds to priorities (10_state.md R28), written out as the list of its
six values so that a configuration is plain data. -/
structure ClassTable where
  key            : Priority
  pointerMotion  : Priority
  indicatorState : Priority
  batteryLevel   : Priority
  configSync     : Priority
  coordination   : Priority
deriving DecidableEq, Repr

/-- The header packing parameter of R6: the lowest bit of each field of the header byte. The category has 4 bits,
the variant 1, the priority 2 and the reserved field 1. -/
structure HdrPacking where
  catLo  : Nat
  varBit : Nat
  priLo  : Nat
  rsvBit : Nat
deriving DecidableEq, Repr

/-- The wire constants of 00_scope.md R6, constant for the life of an instance (10_state.md R29). -/
structure Wire where
  sof             : Byte
  hdr             : HdrPacking
  catCommand      : BitVec 4
  catStatus       : BitVec 4
  catCooperation  : BitVec 4
  catExtended     : BitVec 4
  priLow          : BitVec 2
  priNormal       : BitVec 2
  priHigh         : BitVec 2
  priCritical     : BitVec 2
  varStandard     : BitVec 1
  varCompatible   : BitVec 1
  /-- Byte order of DST, SRC and CRC16: true is most significant byte first (20_memory.md R40). -/
  msbFirst        : Bool
  crc16Poly       : BitVec 16
  crc16Init       : BitVec 16
  crc4Poly        : BitVec 4
  crc4Init        : BitVec 4
deriving DecidableEq, Repr

/-- The configuration record `cfg` of an instance (10_state.md R20 (b), R26 to R29). -/
structure Config where
  cap        : Nat
  localAddr  : Addr
  classTable : ClassTable
  wire       : Wire
deriving DecidableEq, Repr

/-- `MAX_PAYLOAD` (R5). -/
abbrev maxPayload : Nat := 56

/-- `OVH_STD`, the non-payload bytes of a Standard frame (R7). -/
abbrev ovhStd : Nat := 9

/-- `OVH_CMP`, the non-payload bytes of a Compatible frame (R7). -/
abbrev ovhCmp : Nat := 6

/-- `MAX_BODY`, the most bytes from the header byte to the last integrity byte (R7, conflict C1). -/
abbrev maxBody : Nat := 64

/-- `MAX_WIRE`, the most bytes ENCODE returns and the least legal capacity (R7). -/
abbrev maxWire : Nat := 65

end Sys2Proof
end

