-- ==== Sys2Proof/Syntax.lean ====
section
/-!
DEFINITION. The instructions: one constructor per row of spec/opcode_table.json. The rows of format CMD are the
operations of 30_encoding.md R71 with their operands; the rows of format HDR are frames by the header byte that
selects their layout (R62, R63, R64), with the remaining fields of that layout as operands.
-/

namespace Sys2Proof

/-- An instruction. In the frame rows `pri` and `rsv` are the bits `pp` and `r` of the row's pattern, `len` is the
length byte as it stands in the frame (57 to 255 included, R74 (a)), and `crc` or `trl` is the trailer as it stands
in the frame, right or wrong. -/
inductive Instr where
  /-- RESET, 44_system.md R146. -/
  | reset
  /-- CRC4, 40_crc.md R83. -/
  | crc4 (bytes : List Byte)
  /-- CRC16, 40_crc.md R82. -/
  | crc16 (bytes : List Byte)
  /-- CLASSIFY, 41_classifier.md R97. -/
  | classify (kind : Kind)
  /-- ENCODE, 42_encoder.md R101. -/
  | encode (cat : Category) (var : Variant) (pri : Priority) (dst : Addr) (payload : List Byte)
  /-- ENCODEI, 42_encoder.md R104. -/
  | encodei (cat : Category) (var : Variant) (kind : Kind) (dst : Addr) (payload : List Byte)
  /-- PROCESS, 43_assembler.md R120. -/
  | process (newBytes : List Byte)
  /-- RESERVED_OP7, 30_encoding.md R74 (c). -/
  | reservedOp7
  /-- FRAME_COMMAND_STANDARD, header `00000ppr`, layout R62. -/
  | frameCommandStandard (pri : Priority) (rsv : Bool) (dst src : Addr) (len : Byte) (payload : List Byte) (crc : BitVec 16)
  /-- FRAME_COMMAND_COMPATIBLE, header `00001ppr`, layout R63. -/
  | frameCommandCompatible (pri : Priority) (rsv : Bool) (dst : Addr) (len : Byte) (payload : List Byte) (trl : Byte)
  /-- FRAME_STATUS_STANDARD, header `00010ppr`, layout R62. -/
  | frameStatusStandard (pri : Priority) (rsv : Bool) (dst src : Addr) (len : Byte) (payload : List Byte) (crc : BitVec 16)
  /-- FRAME_STATUS_COMPATIBLE, header `00011ppr`, layout R63. -/
  | frameStatusCompatible (pri : Priority) (rsv : Bool) (dst : Addr) (len : Byte) (payload : List Byte) (trl : Byte)
  /-- FRAME_COOPERATION_STANDARD, header `00100ppr`, layout R62. -/
  | frameCooperationStandard (pri : Priority) (rsv : Bool) (dst src : Addr) (len : Byte) (payload : List Byte) (crc : BitVec 16)
  /-- FRAME_COOPERATION_COMPATIBLE, header `00101ppr`, layout R63. -/
  | frameCooperationCompatible (pri : Priority) (rsv : Bool) (dst : Addr) (len : Byte) (payload : List Byte) (trl : Byte)
  /-- FRAME_EXTENDED_STANDARD, header `00110ppr`, layout R62. -/
  | frameExtendedStandard (pri : Priority) (rsv : Bool) (dst src : Addr) (len : Byte) (payload : List Byte) (crc : BitVec 16)
  /-- FRAME_EXTENDED_COMPATIBLE, header `00111ppr`, layout R63. -/
  | frameExtendedCompatible (pri : Priority) (rsv : Bool) (dst : Addr) (len : Byte) (payload : List Byte) (trl : Byte)
  /-- FRAME_RESERVED_CAT_4_7, header `01ccvppr`: a marker and a header of category 4 to 7 (R72). -/
  | frameReservedCat4to7 (cc : BitVec 2) (var : Variant) (pri : Priority) (rsv : Bool)
  /-- FRAME_RESERVED_CAT_8_15, header `1cccvppr`: a marker and a header of category 8 to 15 (R72). -/
  | frameReservedCat8to15 (ccc : BitVec 3) (var : Variant) (pri : Priority) (rsv : Bool)
deriving DecidableEq, Repr

end Sys2Proof
end

