-- ==== Sys2Proof/WellFormed.lean ====
section
/-!
DEFINITION. Which instructions are well-formed. The operands of the operations are typed, so every operation is
(92_eei_decisions.md D30); a frame carries exactly the payload bytes its length byte counts (30_encoding.md R68).
-/

namespace Sys2Proof

/-- How many payload bytes a frame with length byte `len` carries: `len` up to `MAX_PAYLOAD`; a length byte of 57 to
255 declares no frame and counts no payload (30_encoding.md R68, R74 (a); log entry 5). -/
def payloadCount (len : Byte) : Nat :=
  if len.toNat ≤ maxPayload then len.toNat else 0

/-- The one check of a frame instruction: the payload is as long as the length byte says. -/
def payloadMatches (len : Byte) (payload : List Byte) : Bool :=
  payload.length == payloadCount len

/-- A well-formed instruction. -/
def Instr.wellFormed : Instr → Bool
  | .reset => true
  | .crc4 _ => true
  | .crc16 _ => true
  | .classify _ => true
  | .encode _ _ _ _ _ => true
  | .encodei _ _ _ _ _ => true
  | .process _ => true
  | .reservedOp7 => true
  | .frameCommandStandard _ _ _ _ len payload _ => payloadMatches len payload
  | .frameCommandCompatible _ _ _ len payload _ => payloadMatches len payload
  | .frameStatusStandard _ _ _ _ len payload _ => payloadMatches len payload
  | .frameStatusCompatible _ _ _ len payload _ => payloadMatches len payload
  | .frameCooperationStandard _ _ _ _ len payload _ => payloadMatches len payload
  | .frameCooperationCompatible _ _ _ len payload _ => payloadMatches len payload
  | .frameExtendedStandard _ _ _ _ len payload _ => payloadMatches len payload
  | .frameExtendedCompatible _ _ _ len payload _ => payloadMatches len payload
  | .frameReservedCat4to7 _ _ _ _ => true
  | .frameReservedCat8to15 _ _ _ _ => true

end Sys2Proof
end

