-- ==== Sys2Proof/Decode.lean ====
section
/-!
DEFINITION. Instructions as bytes: a total decoder that rejects by name, and after it the encoder.

No source binds the operations to a bus (00_scope.md R9, `BusBinding`), so the byte form of the CMD rows is the
model's own (log entry 1), built on what the spec does give: an operation is its operation code (30_encoding.md R71)
"followed by the operand bytes that go on the wire" (95_test_vectors.md section 3). A 16-bit operand stands most
significant byte first (20_memory.md R40), an enumerated operand is one byte holding its code in listing order, and a
byte sequence of any length is a run of `01 b` pairs closed by `00`. The HDR rows have their wire form: the marker
`0xA5`, the header byte, and the fields of 30_encoding.md R62 or R63.
-/

namespace Sys2Proof

/-- Why bytes are no instruction. -/
inductive DecodeError where
  /-- The bytes end inside an instruction. -/
  | truncated
  /-- The first byte is neither an operation code (0 to 7) nor the marker `0xA5`. -/
  | unknownSelector (b : Byte)
  /-- A category operand above 3 (30_encoding.md R72: not expressible on transmit). -/
  | badCategory (b : Byte)
  /-- A variant operand above 1. -/
  | badVariant (b : Byte)
  /-- A priority operand above 3. -/
  | badPriority (b : Byte)
  /-- A kind operand above 5. -/
  | badKind (b : Byte)
  /-- A mark other than `00` and `01` inside a byte-sequence operand. -/
  | badSequenceMark (b : Byte)
deriving DecidableEq, Repr

/-- What a decoder of `α` answers on a byte string: the value and the bytes after it, or the reason. -/
abbrev Decoding (α : Type) := Except DecodeError (α × List Byte)

/-! ### Bytes of a 16-bit value -/

/-- `v[15:8]`. -/
def hiByte (v : BitVec 16) : Byte := v.extractLsb' 8 8

/-- `v[7:0]`. -/
def loByte (v : BitVec 16) : Byte := v.extractLsb' 0 8

/-- `(hi << 8) | lo`. -/
def joinBytes (hi lo : Byte) : BitVec 16 := hi ++ lo

/-! ### Codes of the enumerated types as the opcode table writes them (30_encoding.md R64 to R66, R95) -/

/-- The category of a two-bit code (`HDR[5:4]` when `HDR[7:6]` is zero). -/
def categoryOfBits (c : BitVec 2) : Category :=
  if c = 0 then .command else if c = 1 then .status else if c = 2 then .cooperation else .extended

/-- The two-bit code of a category. -/
def categoryBits : Category → BitVec 2
  | .command => 0
  | .status => 1
  | .cooperation => 2
  | .extended => 3

/-- The variant of `HDR[3]`: 0 Standard, 1 Compatible. -/
def variantOfBit (b : Bool) : Variant := if b then .compatible else .standard

/-- `HDR[3]` of a variant. -/
def variantBit : Variant → Bool
  | .standard => false
  | .compatible => true

/-- The priority of `HDR[2:1]`. -/
def priorityOfBits (c : BitVec 2) : Priority :=
  if c = 0 then .low else if c = 1 then .normal else if c = 2 then .high else .critical

/-- `HDR[2:1]` of a priority. -/
def priorityBits : Priority → BitVec 2
  | .low => 0
  | .normal => 1
  | .high => 2
  | .critical => 3

/-- The header byte of the table: `cat[7:4] var[3] pri[2:1] rsv[0]`. -/
def tableHeader (cat : BitVec 4) (var : Variant) (pri : Priority) (rsv : Bool) : Byte :=
  cat ++ BitVec.ofBool (variantBit var) ++ priorityBits pri ++ BitVec.ofBool rsv

/-! ### Operand forms of the request port (log entry 1) -/

/-- A byte-sequence operand: pairs `01 b`, closed by `00`. -/
def decodeSeq : List Byte → Decoding (List Byte)
  | [] => .error .truncated
  | [m] => if m = 0 then .ok ([], []) else if m = 1 then .error .truncated else .error (.badSequenceMark m)
  | m :: b :: rest =>
    if m = 0 then .ok ([], b :: rest)
    else if m = 1 then
      match decodeSeq rest with
      | .ok (bs, rest') => .ok (b :: bs, rest')
      | .error e => .error e
    else .error (.badSequenceMark m)

/-- A category operand, one byte. -/
def decodeCategory (b : Byte) : Except DecodeError Category :=
  if b.toNat < 4 then .ok (categoryOfBits (b.extractLsb' 0 2)) else .error (.badCategory b)

/-- A variant operand, one byte. -/
def decodeVariant (b : Byte) : Except DecodeError Variant :=
  if b.toNat < 2 then .ok (variantOfBit (b.getLsbD 0)) else .error (.badVariant b)

/-- A priority operand, one byte. -/
def decodePriority (b : Byte) : Except DecodeError Priority :=
  if b.toNat < 4 then .ok (priorityOfBits (b.extractLsb' 0 2)) else .error (.badPriority b)

/-- A kind operand, one byte, in the order of 41_classifier.md R95. -/
def decodeKind (b : Byte) : Except DecodeError Kind :=
  if b = 0 then .ok .key
  else if b = 1 then .ok .pointerMotion
  else if b = 2 then .ok .indicatorState
  else if b = 3 then .ok .batteryLevel
  else if b = 4 then .ok .configSync
  else if b = 5 then .ok .coordination
  else .error (.badKind b)

/-- An instruction whose only operand is a byte sequence. -/
def decodeWithSeq (make : List Byte → Instr) (rest : List Byte) : Decoding Instr :=
  match decodeSeq rest with
  | .ok (bs, rest') => .ok (make bs, rest')
  | .error e => .error e

/-- The operands of CLASSIFY. -/
def decodeClassify : List Byte → Decoding Instr
  | [] => .error .truncated
  | k :: rest =>
    match decodeKind k with
    | .ok kind => .ok (.classify kind, rest)
    | .error e => .error e

/-- The operands of ENCODE: category, variant, priority, `dst`, payload. -/
def decodeEncode : List Byte → Decoding Instr
  | c :: v :: p :: dh :: dl :: rest =>
    match decodeCategory c, decodeVariant v, decodePriority p with
    | .ok cat, .ok var, .ok pri => decodeWithSeq (.encode cat var pri (joinBytes dh dl)) rest
    | .error e, _, _ => .error e
    | _, .error e, _ => .error e
    | _, _, .error e => .error e
  | _ => .error .truncated

/-- The operands of ENCODEI: category, variant, kind, `dst`, payload. -/
def decodeEncodei : List Byte → Decoding Instr
  | c :: v :: k :: dh :: dl :: rest =>
    match decodeCategory c, decodeVariant v, decodeKind k with
    | .ok cat, .ok var, .ok kind => decodeWithSeq (.encodei cat var kind (joinBytes dh dl)) rest
    | .error e, _, _ => .error e
    | _, .error e, _ => .error e
    | _, _, .error e => .error e
  | _ => .error .truncated

/-- An operation by its code (30_encoding.md R71), `op` being the selector byte. -/
def decodeOperation (op : Byte) (rest : List Byte) : Decoding Instr :=
  if op = 0 then .ok (.reset, rest)
  else if op = 1 then decodeWithSeq .crc4 rest
  else if op = 2 then decodeWithSeq .crc16 rest
  else if op = 3 then decodeClassify rest
  else if op = 4 then decodeEncode rest
  else if op = 5 then decodeEncodei rest
  else if op = 6 then decodeWithSeq .process rest
  else if op = 7 then .ok (.reservedOp7, rest)
  else .error (.unknownSelector op)

/-! ### Frames -/

/-- The first `n` bytes and the rest, when there are that many. -/
def takeBytes (n : Nat) (bytes : List Byte) : Option (List Byte × List Byte) :=
  if n ≤ bytes.length then some (bytes.take n, bytes.drop n) else none

/-- The Standard row of a category. -/
def standardRow (cat : Category) (pri : Priority) (rsv : Bool) (dst src : Addr) (len : Byte) (payload : List Byte)
    (crc : BitVec 16) : Instr :=
  match cat with
  | .command => .frameCommandStandard pri rsv dst src len payload crc
  | .status => .frameStatusStandard pri rsv dst src len payload crc
  | .cooperation => .frameCooperationStandard pri rsv dst src len payload crc
  | .extended => .frameExtendedStandard pri rsv dst src len payload crc

/-- The Compatible row of a category. -/
def compatibleRow (cat : Category) (pri : Priority) (rsv : Bool) (dst : Addr) (len : Byte) (payload : List Byte)
    (trl : Byte) : Instr :=
  match cat with
  | .command => .frameCommandCompatible pri rsv dst len payload trl
  | .status => .frameStatusCompatible pri rsv dst len payload trl
  | .cooperation => .frameCooperationCompatible pri rsv dst len payload trl
  | .extended => .frameExtendedCompatible pri rsv dst len payload trl

/-- The fields after the header byte `h` of a Standard frame (30_encoding.md R62). -/
def decodeStandard (h : Byte) : List Byte → Decoding Instr
  | dh :: dl :: sh :: sl :: len :: rest =>
    match takeBytes (payloadCount len) rest with
    | some (payload, c1 :: c0 :: rest') =>
      .ok (standardRow (categoryOfBits (h.extractLsb' 4 2)) (priorityOfBits (h.extractLsb' 1 2)) (h.getLsbD 0)
        (joinBytes dh dl) (joinBytes sh sl) len payload (joinBytes c1 c0), rest')
    | _ => .error .truncated
  | _ => .error .truncated

/-- The fields after the header byte `h` of a Compatible frame (30_encoding.md R63). -/
def decodeCompatible (h : Byte) : List Byte → Decoding Instr
  | dh :: dl :: len :: rest =>
    match takeBytes (payloadCount len) rest with
    | some (payload, t :: rest') =>
      .ok (compatibleRow (categoryOfBits (h.extractLsb' 4 2)) (priorityOfBits (h.extractLsb' 1 2)) (h.getLsbD 0)
        (joinBytes dh dl) len payload t, rest')
    | _ => .error .truncated
  | _ => .error .truncated

/-- The bytes after a marker: the header byte selects the row (opcode_table.json, format HDR). -/
def decodeFrame : List Byte → Decoding Instr
  | [] => .error .truncated
  | h :: rest =>
    if h.getLsbD 7 then
      .ok (.frameReservedCat8to15 (h.extractLsb' 4 3) (variantOfBit (h.getLsbD 3)) (priorityOfBits (h.extractLsb' 1 2))
        (h.getLsbD 0), rest)
    else if h.getLsbD 6 then
      .ok (.frameReservedCat4to7 (h.extractLsb' 4 2) (variantOfBit (h.getLsbD 3)) (priorityOfBits (h.extractLsb' 1 2))
        (h.getLsbD 0), rest)
    else if h.getLsbD 3 then decodeCompatible h rest
    else decodeStandard h rest

/-- The decoder: the first instruction of a byte string and the bytes after it, or why there is none. -/
def decode : List Byte → Decoding Instr
  | [] => .error .truncated
  | b :: rest => if b = 0xA5 then decodeFrame rest else decodeOperation b rest

/-! ### The encoder -/

/-- A byte-sequence operand of the request port. -/
def encodeSeq : List Byte → List Byte
  | [] => [0x00]
  | b :: bs => 0x01 :: b :: encodeSeq bs

/-- A kind operand, one byte. -/
def kindByte : Kind → Byte
  | .key => 0
  | .pointerMotion => 1
  | .indicatorState => 2
  | .batteryLevel => 3
  | .configSync => 4
  | .coordination => 5

/-- A category operand, one byte. -/
def categoryByte (c : Category) : Byte := (categoryBits c).setWidth 8

/-- A variant operand, one byte. -/
def variantByte (v : Variant) : Byte := (BitVec.ofBool (variantBit v)).setWidth 8

/-- A priority operand, one byte. -/
def priorityByte (p : Priority) : Byte := (priorityBits p).setWidth 8

/-- The bytes of a Standard frame row (30_encoding.md R62). -/
def encodeStandard (cat : Category) (pri : Priority) (rsv : Bool) (dst src : Addr) (len : Byte) (payload : List Byte)
    (crc : BitVec 16) : List Byte :=
  [0xA5, tableHeader ((categoryBits cat).setWidth 4) .standard pri rsv, hiByte dst, loByte dst, hiByte src, loByte src, len]
    ++ payload ++ [hiByte crc, loByte crc]

/-- The bytes of a Compatible frame row (30_encoding.md R63). -/
def encodeCompatible (cat : Category) (pri : Priority) (rsv : Bool) (dst : Addr) (len : Byte) (payload : List Byte)
    (trl : Byte) : List Byte :=
  [0xA5, tableHeader ((categoryBits cat).setWidth 4) .compatible pri rsv, hiByte dst, loByte dst, len] ++ payload ++ [trl]

/-- The bytes of an instruction. -/
def encode : Instr → List Byte
  | .reset => [0x00]
  | .crc4 bytes => 0x01 :: encodeSeq bytes
  | .crc16 bytes => 0x02 :: encodeSeq bytes
  | .classify kind => [0x03, kindByte kind]
  | .encode cat var pri dst payload =>
    [0x04, categoryByte cat, variantByte var, priorityByte pri, hiByte dst, loByte dst] ++ encodeSeq payload
  | .encodei cat var kind dst payload =>
    [0x05, categoryByte cat, variantByte var, kindByte kind, hiByte dst, loByte dst] ++ encodeSeq payload
  | .process newBytes => 0x06 :: encodeSeq newBytes
  | .reservedOp7 => [0x07]
  | .frameCommandStandard pri rsv dst src len payload crc => encodeStandard .command pri rsv dst src len payload crc
  | .frameCommandCompatible pri rsv dst len payload trl => encodeCompatible .command pri rsv dst len payload trl
  | .frameStatusStandard pri rsv dst src len payload crc => encodeStandard .status pri rsv dst src len payload crc
  | .frameStatusCompatible pri rsv dst len payload trl => encodeCompatible .status pri rsv dst len payload trl
  | .frameCooperationStandard pri rsv dst src len payload crc => encodeStandard .cooperation pri rsv dst src len payload crc
  | .frameCooperationCompatible pri rsv dst len payload trl => encodeCompatible .cooperation pri rsv dst len payload trl
  | .frameExtendedStandard pri rsv dst src len payload crc => encodeStandard .extended pri rsv dst src len payload crc
  | .frameExtendedCompatible pri rsv dst len payload trl => encodeCompatible .extended pri rsv dst len payload trl
  | .frameReservedCat4to7 cc var pri rsv => [0xA5, tableHeader ((1 : BitVec 2) ++ cc) var pri rsv]
  | .frameReservedCat8to15 ccc var pri rsv => [0xA5, tableHeader ((1 : BitVec 1) ++ ccc) var pri rsv]

/-! ### Words as spec/opcode_table.json numbers them -/

/-- The `n` bytes of `w`, bits 7 to 0 first. -/
def wordBytes (w : Nat) : Nat → List Byte
  | 0 => []
  | n + 1 => BitVec.ofNat 8 w :: wordBytes (w / 256) n

/-- The bytes to decode for a table word of `nbits` bits with value `w`, every later bit zero. A word of one byte is
an operation selector when its value is 0 to 7 and otherwise a header byte, which the table numbers without the
marker that precedes it on the wire (log entry 11); a longer word stands as its bytes. -/
def tableBytes (nbits w : Nat) : List Byte :=
  let bytes := wordBytes w (max 1 ((nbits + 7) / 8))
  let bytes := if nbits ≤ 8 && 8 ≤ w % 256 then 0xA5 :: bytes else bytes
  bytes ++ List.replicate 16 0x00

/-- The instruction the decoder reads from a word of the opcode table. -/
def decodeTableWord (nbits w : Nat) : Option Instr :=
  match decode (tableBytes nbits w) with
  | .ok (i, _) => some i
  | .error _ => none

/-- The bytes of exactly that instruction, or the bytes the decoder refuses. -/
def tableWordRequest (nbits w : Nat) : List Byte :=
  let bytes := tableBytes nbits w
  match decode bytes with
  | .ok (_, rest) => bytes.take (bytes.length - rest.length)
  | .error _ => bytes

end Sys2Proof
end

