-- ==== Sys2Proof/Machine/Defaults.lean ====
section
/-!
DEFINITION. The default values of the configuration: the wire constants frozen by 00_scope.md R6, the reference
mapping of 41_classifier.md R96, the reference capacity (R5), and the one value the spec leaves to the constructor.
-/

namespace Sys2Proof.Machine

/-- `cat[7:4] var[3] pri[2:1] rsv[0]` (R6, 30_encoding.md R64). -/
def defaultHdr : HdrPacking := { catLo := 4, varBit := 3, priLo := 1, rsvBit := 0 }

/-- The wire constants of R6 (30_encoding.md R61, R64 to R66; 40_crc.md R81). -/
def defaultWire : Wire where
  sof := 0xA5
  hdr := defaultHdr
  catCommand := 0
  catStatus := 1
  catCooperation := 2
  catExtended := 3
  priLow := 0
  priNormal := 1
  priHigh := 2
  priCritical := 3
  varStandard := 0
  varCompatible := 1
  msbFirst := true
  crc16Poly := 0x1021
  crc16Init := 0xFFFF
  crc4Poly := 0x3
  crc4Init := 0xF

/-- The reference mapping (R96). -/
def defaultClassTable : ClassTable where
  key := .high
  pointerMotion := .high
  indicatorState := .normal
  batteryLevel := .low
  configSync := .low
  coordination := .critical

/-- The reference capacity (R5). -/
def defaultCap : Nat := 512

/-- `LOCAL_ADDR` of the instance `State.reset` stands for. DESIGN CHOICE, unsafe: 10_state.md R27 gives no default;
this is the value the vectors of 95_test_vectors.md section 2.3 use (log entry 4). -/
def defaultLocalAddr : Addr := 0x0001

/-- The configuration of the instance `State.reset` stands for. -/
def defaultConfig : Config where
  cap := defaultCap
  localAddr := defaultLocalAddr
  classTable := defaultClassTable
  wire := defaultWire

end Sys2Proof.Machine
end

