-- ==== Sys2Proof/Machine/State.lean ====
section
/-!
DEFINITION. The state of one instance (10_state.md R20: `buf` and `cfg`, nothing else), the caller's side of the
transaction interface (00_scope.md R9), the results of operations, and the reasons a step can stop.
-/

namespace Sys2Proof.Machine

/-- The two caller-visible errors (60_exceptions.md R150 to R152). -/
inductive Error where
  /-- Raised by ENCODE and ENCODEI for a payload longer than 56 bytes (R151). -/
  | payloadTooLarge
  /-- Raised by PROCESS for bytes that do not fit (R152). -/
  | bufferFull
deriving DecidableEq, Repr

/-- What PROCESS yields (00_scope.md R11, 43_assembler.md R122). -/
structure Decoded where
  category : Category
  variant  : Variant
  priority : Priority
  dst      : Addr
  src      : Option Addr
  payload  : List Byte
deriving DecidableEq, Repr

/-- The result of an operation (00_scope.md R9), one constructor per kind of value of 30_encoding.md R71. -/
inductive Result where
  /-- `Ok(())` of RESET. -/
  | ok
  /-- `Ok` of CRC4. -/
  | okCrc4 (value : BitVec 4)
  /-- `Ok` of CRC16. -/
  | okCrc16 (value : BitVec 16)
  /-- `Ok` of CLASSIFY. -/
  | okPriority (value : Priority)
  /-- `Ok` of ENCODE and ENCODEI. -/
  | okFrame (bytes : List Byte)
  /-- `None` of PROCESS. -/
  | noMessage
  /-- `Some` of PROCESS. -/
  | message (d : Decoded)
  /-- `Err`. -/
  | err (e : Error)
deriving DecidableEq, Repr

/-- Why the assembler passes over bytes: labels that no operation stores or returns (60_exceptions.md R153). -/
inductive Failure where
  /-- A byte at the scan position is not the marker (R124). -/
  | invalidStartMarker
  /-- The header's category code is reserved (30_encoding.md R72). -/
  | unknownFrameCategory
  /-- The length byte is above 56 (30_encoding.md R74 (a)). -/
  | invalidLength
  /-- The integrity field does not match (30_encoding.md R69, R70). -/
  | invalidCrc
  /-- The candidate is not all there yet (conflict C4). -/
  | frameTooShort
deriving DecidableEq, Repr

/-- The judgement of one candidate (00_scope.md R11, 43_assembler.md R123). -/
inductive Verdict where
  | incomplete
  | reject (reason : Failure)
  | accept (d : Decoded) (total : Nat)
deriving DecidableEq, Repr

/-- The assembler's states between operations and inside one PROCESS (10_state.md R30); derived, never stored. -/
inductive AssemblerState where
  | empty | scanning | frameDetected | resyncing
deriving DecidableEq, Repr

/-- The block has no fault (60_exceptions.md R158: "A model therefore needs no fault outcome for this block"), so
nothing raises one. -/
inductive Fault
deriving DecidableEq, Repr

/-- Why the model has no step. -/
inductive Refusal where
  /-- Raised by `exec` alone, for an instruction without a meaning yet; no arm of this model raises it. Safe. -/
  | notModelled (mnemonic : String)
  /-- Raised by RESERVED_OP7: operation code 7 is reserved (30_encoding.md R74 (c), 93_implementation_defined.md U5).
  Safe. -/
  | reservedOperation
  /-- Raised by `step` for request bytes that are no instruction: malformed operands cannot be written down
  (92_eei_decisions.md D30; log entry 10). Safe. -/
  | malformedRequest (e : DecodeError)
  /-- Raised by `construct` for a capacity below 65 (44_system.md R145, 93_implementation_defined.md U4). Safe. -/
  | capacityTooSmall
deriving DecidableEq, Repr

/-- One instance and its caller's side of the interface. -/
structure State where
  /-- The receive buffer, oldest byte first (10_state.md R21, R23). -/
  buf      : List Byte
  /-- The configuration record, constant after construction (10_state.md R26 to R29). -/
  cfg      : Config
  /-- The model's own: the bytes of the operations the caller has issued and the block has not run, oldest first
  (00_scope.md R9, 20_memory.md R46; log entry 3). -/
  request  : List Byte
  /-- The model's own: the result the latest operation handed back to the caller. The block does not keep it
  (10_state.md R25): no operation reads it (log entry 2). -/
  response : Option Result
deriving DecidableEq, Repr

/-- The instance right after construction with the default configuration (10_state.md R32, 70_reset_and_hazards.md
R170), no operation issued yet. -/
def State.reset : State where
  buf := []
  cfg := defaultConfig
  request := []
  response := none

end Sys2Proof.Machine
end

