-- ==== Sys2Proof/Machine/Ops.lean ====
section
/-!
DEFINITION. The named operations over the state: the buffer primitives of 00_scope.md R10, handing a result to the
caller, raising an error, and fetching the next issued operation.
-/

namespace Sys2Proof.Machine

/-! ### The buffer (00_scope.md R10; there is no write at an index) -/

/-- `MemRead(i, n)`: `buf[i..i+n)`, defined only when `i + n <= |buf|`. -/
def memRead (buf : List Byte) (i n : Nat) : Option (List Byte) :=
  if i + n ≤ buf.length then some ((buf.drop i).take n) else none

/-- `MemAppend(bytes)`. -/
def memAppend (buf bytes : List Byte) : List Byte := buf ++ bytes

/-- `MemDrop(n)`: `buf[n..|buf|)`. -/
def memDrop (buf : List Byte) (n : Nat) : List Byte := buf.drop n

/-- `buf[i]`, for an index the rule has shown to be present (20_memory.md R42). -/
def byteAt (buf : List Byte) (i : Nat) : Byte := buf.getD i 0

/-- `buf[a..b)`, empty when `a >= b` (R8). -/
def slice (buf : List Byte) (a b : Nat) : List Byte := (buf.drop a).take (b - a)

/-- The form every buffer of an instance has: at most `CAP` bytes (10_state.md R21). -/
abbrev Memory.wf (cap : Nat) (buf : List Byte) : Prop := buf.length ≤ cap

/-! ### The end of an operation (00_scope.md R9, R10) -/

/-- `return r`: the result goes to the caller. -/
def State.answer (s : State) (r : Result) : State := { s with response := some r }

/-- `buf <- b`. -/
def State.setBuf (s : State) (b : List Byte) : State := { s with buf := b }

/-- `raise E`, the block's only error entry (60_exceptions.md R156): the result is `Err(E)` and all state is as it was
when the operation began; no register saves anything, no mode changes, no vector is taken. There is no return from
error: the next operation runs by its ordinary rule (R157). -/
def State.raise (s : State) (e : Error) : State := s.answer (.err e)

/-! ### The caller's side -/

/-- The caller issues an operation: it runs after those already issued (20_memory.md R46). -/
def State.issue (s : State) (i : Instr) : State := { s with request := s.request ++ encode i }

/-- The next issued operation with the state in which it has been taken off the request bytes, `none` when the
caller has issued none. -/
def fetch (s : State) : Option (Except DecodeError (Instr × State)) :=
  match s.request with
  | [] => none
  | b :: bs =>
    match decode (b :: bs) with
    | .ok (i, rest) => some (.ok (i, { s with request := rest }))
    | .error e => some (.error e)

end Sys2Proof.Machine
end

