-- ==== Sys2Proof/Machine/Classifier.lean ====
section
/-!
DEFINITION. The priority classifier (41_classifier.md): the table as a function, and the operation CLASSIFY.
-/

namespace Sys2Proof.Machine

/-- `CLASS_TABLE(kind)` (10_state.md R28). -/
def classOf (t : ClassTable) : Kind → Priority
  | .key => t.key
  | .pointerMotion => t.pointerMotion
  | .indicatorState => t.indicatorState
  | .batteryLevel => t.batteryLevel
  | .configSync => t.configSync
  | .coordination => t.coordination

/-- CLASSIFY (R97). -/
def execClassify (kind : Kind) (s : State) : Host.Outcome State Fault Refusal :=
  .next (s.answer (.okPriority (classOf s.cfg.classTable kind)))

end Sys2Proof.Machine
end

