-- ==== Sys2Proof/Machine/Operands.lean ====
section
/-!
DEFINITION. The operand forms of frames under the wire constants of an instance: byte order, the codes of the
enumerated fields, the header byte and the two frame layouts (30_encoding.md R60 to R70, 20_memory.md R40).
-/

namespace Sys2Proof.Machine

/-! ### 16-bit fields (20_memory.md R40) -/

/-- The two bytes of a 16-bit field. -/
def serial16 (w : Wire) (v : BitVec 16) : List Byte :=
  if w.msbFirst then [hiByte v, loByte v] else [loByte v, hiByte v]

/-- The 16-bit field two consecutive bytes hold. -/
def read16 (w : Wire) (first second : Byte) : BitVec 16 :=
  if w.msbFirst then joinBytes first second else joinBytes second first

/-! ### Codes (30_encoding.md R64 to R66) -/

/-- The category code an instance writes. -/
def catCode (w : Wire) : Category → BitVec 4
  | .command => w.catCommand
  | .status => w.catStatus
  | .cooperation => w.catCooperation
  | .extended => w.catExtended

/-- The category of a received code; none for a reserved code (R72). -/
def catOf (w : Wire) (c : BitVec 4) : Option Category :=
  if c = w.catCommand then some .command
  else if c = w.catStatus then some .status
  else if c = w.catCooperation then some .cooperation
  else if c = w.catExtended then some .extended
  else none

/-- The priority code an instance writes. -/
def priCode (w : Wire) : Priority → BitVec 2
  | .low => w.priLow
  | .normal => w.priNormal
  | .high => w.priHigh
  | .critical => w.priCritical

/-- The priority of a received code; there is no reserved priority code (R66). -/
def priOf (w : Wire) (c : BitVec 2) : Priority :=
  if c = w.priLow then .low
  else if c = w.priNormal then .normal
  else if c = w.priHigh then .high
  else .critical

/-- The variant bit an instance writes. -/
def varCode (w : Wire) : Variant → BitVec 1
  | .standard => w.varStandard
  | .compatible => w.varCompatible

/-- The variant of a received variant bit. -/
def varOf (w : Wire) (c : BitVec 1) : Variant :=
  if c = w.varStandard then .standard else .compatible

/-- The order of priorities, `Critical > High > Normal > Low` (R11, R66): the block never compares them (41_classifier.md
R98). -/
def priorityRank : Priority → Nat
  | .low => 0
  | .normal => 1
  | .high => 2
  | .critical => 3

/-! ### The header byte (30_encoding.md R64) -/

/-- The header byte of four field values: each field's code at the field's place. -/
def packHeader (p : HdrPacking) (cat : BitVec 4) (var : BitVec 1) (pri : BitVec 2) (rsv : Bool) : Byte :=
  (cat.setWidth 8 <<< p.catLo) ||| (var.setWidth 8 <<< p.varBit) ||| (pri.setWidth 8 <<< p.priLo)
    ||| ((BitVec.ofBool rsv).setWidth 8 <<< p.rsvBit)

/-- `cat` of a header byte. -/
def headerCat (p : HdrPacking) (h : Byte) : BitVec 4 := h.extractLsb' p.catLo 4

/-- `var` of a header byte. -/
def headerVar (p : HdrPacking) (h : Byte) : BitVec 1 := h.extractLsb' p.varBit 1

/-- `pri` of a header byte. -/
def headerPri (p : HdrPacking) (h : Byte) : BitVec 2 := h.extractLsb' p.priLo 2

/-- `HDR` as the encoder writes it, the reserved bit 0 (R64). -/
def headerByte (w : Wire) (cat : Category) (var : Variant) (pri : Priority) : Byte :=
  packHeader w.hdr (catCode w cat) (varCode w var) (priCode w pri) false

/-! ### Layout (30_encoding.md R62, R63, R68) -/

/-- `H`, the offset of the first payload byte from the marker (R68). -/
def headLength : Variant → Nat
  | .standard => 7
  | .compatible => 5

/-- `T`, the number of trailer bytes. -/
def trailerLength : Variant → Nat
  | .standard => 2
  | .compatible => 1

/-- `L` as an unsigned byte. -/
def lengthByte (payload : List Byte) : Byte := BitVec.ofNat 8 payload.length

/-- The body of a Standard frame: offsets 1 to `6 + L` of R62. -/
def standardBody (w : Wire) (hdr : Byte) (dst src : Addr) (len : Byte) (payload : List Byte) : List Byte :=
  [hdr] ++ serial16 w dst ++ serial16 w src ++ [len] ++ payload

/-- The body of a Compatible frame: offsets 1 to `4 + L` of R63. -/
def compatibleBody (w : Wire) (hdr : Byte) (dst : Addr) (len : Byte) (payload : List Byte) : List Byte :=
  [hdr] ++ serial16 w dst ++ [len] ++ payload

/-- A Standard frame on the wire: marker, body, two trailer bytes (R62). -/
def standardFrame (w : Wire) (hdr : Byte) (dst src : Addr) (len : Byte) (payload : List Byte) (crc : BitVec 16) :
    List Byte :=
  [w.sof] ++ standardBody w hdr dst src len payload ++ serial16 w crc

/-- A Compatible frame on the wire: marker, body, one trailer byte (R63). -/
def compatibleFrame (w : Wire) (hdr : Byte) (dst : Addr) (len : Byte) (payload : List Byte) (trl : Byte) : List Byte :=
  [w.sof] ++ compatibleBody w hdr dst len payload ++ [trl]

/-! ### What makes wire constants usable (log entry 9) -/

/-- The four fields of a header byte lie inside the byte and do not overlap. -/
def packingWf (p : HdrPacking) : Bool :=
  p.catLo ≤ 4 && p.varBit ≤ 7 && p.priLo ≤ 6 && p.rsvBit ≤ 7
    && ((0xF : Byte) <<< p.catLo ||| (0x1 : Byte) <<< p.varBit ||| (0x3 : Byte) <<< p.priLo ||| (0x1 : Byte) <<< p.rsvBit) == 0xFF

/-- The header fields do not overlap and the codes of each enumeration differ. -/
def wireWf (w : Wire) : Bool :=
  packingWf w.hdr
    && w.catCommand != w.catStatus && w.catCommand != w.catCooperation && w.catCommand != w.catExtended
    && w.catStatus != w.catCooperation && w.catStatus != w.catExtended && w.catCooperation != w.catExtended
    && w.priLow != w.priNormal && w.priLow != w.priHigh && w.priLow != w.priCritical
    && w.priNormal != w.priHigh && w.priNormal != w.priCritical && w.priHigh != w.priCritical
    && w.varStandard != w.varCompatible

end Sys2Proof.Machine
end

