-- ==== Sys2Proof/Machine/Crc.lean ====
section
/-!
DEFINITION. The CRC engine (40_crc.md): the shared bit-serial loop, the two integrity functions of an instance, and
the operations CRC4 and CRC16.
-/

namespace Sys2Proof.Machine

/-- One pass of the inner loop of R80: the feedback bit, the shift, the conditional subtraction of the polynomial. -/
def crcBit {W : Nat} (poly c : BitVec W) (bit : Bool) : BitVec W :=
  let fb := c.msb ^^ bit
  let c := c <<< 1
  if fb then c ^^^ poly else c

/-- The eight bits of a byte, bit 7 first (R80). -/
def crcByte {W : Nat} (poly c : BitVec W) (b : Byte) : BitVec W :=
  [7, 6, 5, 4, 3, 2, 1, 0].foldl (fun c i => crcBit poly c (b.getLsbD i)) c

/-- `CRC(W, poly, init, bytes)` (R80). -/
def crc {W : Nat} (poly init : BitVec W) (bytes : List Byte) : BitVec W :=
  bytes.foldl (crcByte poly) init

/-- The wide integrity function of an instance (R82). -/
def crc16 (w : Wire) (bytes : List Byte) : BitVec 16 := crc w.crc16Poly w.crc16Init bytes

/-- The narrow integrity function of an instance (R83). -/
def crc4 (w : Wire) (bytes : List Byte) : BitVec 4 := crc w.crc4Poly w.crc4Init bytes

/-- The Compatible trailer byte of a body, `zext_8(CRC4(body))` (30_encoding.md R63). -/
def narrowTrailer (w : Wire) (body : List Byte) : Byte := (crc4 w body).setWidth 8

/-- CRC4 (R83). -/
def execCrc4 (bytes : List Byte) (s : State) : Host.Outcome State Fault Refusal :=
  .next (s.answer (.okCrc4 (crc4 s.cfg.wire bytes)))

/-- CRC16 (R82). -/
def execCrc16 (bytes : List Byte) (s : State) : Host.Outcome State Fault Refusal :=
  .next (s.answer (.okCrc16 (crc16 s.cfg.wire bytes)))

end Sys2Proof.Machine
end

