-- ==== Sys2Proof/Machine/Encoder.lean ====
section
/-!
DEFINITION. The frame encoder (42_encoder.md): the bytes of a frame, and the operations ENCODE and ENCODEI.
-/

namespace Sys2Proof.Machine

/-- The frame of R101 for a payload that fits. -/
def frameBytes (cfg : Config) (cat : Category) (var : Variant) (pri : Priority) (dst : Addr) (payload : List Byte) :
    List Byte :=
  let w := cfg.wire
  let hdr := headerByte w cat var pri
  let len := lengthByte payload
  match var with
  | .standard =>
    standardFrame w hdr dst cfg.localAddr len payload (crc16 w (standardBody w hdr dst cfg.localAddr len payload))
  | .compatible =>
    compatibleFrame w hdr dst len payload (narrowTrailer w (compatibleBody w hdr dst len payload))

/-- The result of R101: the payload length is checked before anything else (R105). -/
def encodeFrame (cfg : Config) (cat : Category) (var : Variant) (pri : Priority) (dst : Addr) (payload : List Byte) :
    Except Error (List Byte) :=
  if payload.length > maxPayload then .error .payloadTooLarge else .ok (frameBytes cfg cat var pri dst payload)

/-- How ENCODE and ENCODEI end: the frame or the error, and no change of state (R101). -/
def answerEncoding (s : State) : Except Error (List Byte) → State
  | .ok bytes => s.answer (.okFrame bytes)
  | .error e => s.raise e

/-- ENCODE (R101). -/
def execEncode (cat : Category) (var : Variant) (pri : Priority) (dst : Addr) (payload : List Byte) (s : State) :
    Host.Outcome State Fault Refusal :=
  .next (answerEncoding s (encodeFrame s.cfg cat var pri dst payload))

/-- ENCODEI (R104): the priority is `CLASS_TABLE(kind)`. -/
def execEncodei (cat : Category) (var : Variant) (kind : Kind) (dst : Addr) (payload : List Byte) (s : State) :
    Host.Outcome State Fault Refusal :=
  .next (answerEncoding s (encodeFrame s.cfg cat var (classOf s.cfg.classTable kind) dst payload))

end Sys2Proof.Machine
end

