-- ==== Sys2Proof/Machine/Assembler.lean ====
section
/-!
DEFINITION. The stream assembler (43_assembler.md): the marker search, the judgement of a candidate, the scan with its
resynchronisation, and the operation PROCESS.
-/

namespace Sys2Proof.Machine

/-- `FindMarker(pos)` (R124): the least index from `pos` on that holds the marker. -/
def findMarker (w : Wire) (buf : List Byte) (pos : Nat) : Option Nat :=
  ((buf.drop pos).findIdx? (· == w.sof)).map (pos + ·)

/-- The integrity test of a complete candidate whose marker is at `p` (30_encoding.md R69, R70): `e` is the index of the
first trailer byte. -/
def integrityOk (w : Wire) (var : Variant) (buf : List Byte) (p e : Nat) : Bool :=
  let body := slice buf (p + 1) e
  match var with
  | .standard => crc16 w body == read16 w (byteAt buf e) (byteAt buf (e + 1))
  | .compatible => narrowTrailer w body == byteAt buf e

/-- The fields of a complete candidate whose marker is at `p` (R122; 30_encoding.md R67, R68). -/
def decodedAt (w : Wire) (cat : Category) (var : Variant) (pri : Priority) (buf : List Byte) (p e : Nat) : Decoded where
  category := cat
  variant := var
  priority := pri
  dst := read16 w (byteAt buf (p + 2)) (byteAt buf (p + 3))
  src := match var with
    | .standard => some (read16 w (byteAt buf (p + 4)) (byteAt buf (p + 5)))
    | .compatible => none
  payload := slice buf (p + headLength var) e

/-- `Judge(p)` (R123): availability of a field, the structural test on it, then the next field; the integrity test last
and only on a complete candidate. -/
def judge (w : Wire) (buf : List Byte) (p : Nat) : Verdict :=
  let avail := buf.length - p
  if avail < 2 then .incomplete
  else
    let hdr := byteAt buf (p + 1)
    let var := varOf w (headerVar w.hdr hdr)
    let pri := priOf w (headerPri w.hdr hdr)
    match catOf w (headerCat w.hdr hdr) with
    | none => .reject .unknownFrameCategory
    | some cat =>
      let h := headLength var
      if avail < h then .incomplete
      else
        let l := (byteAt buf (p + h - 1)).toNat
        if l > maxPayload then .reject .invalidLength
        else
          let total := h + l + trailerLength var
          if avail < total then .incomplete
          else if integrityOk w var buf p (p + h + l) then .accept (decodedAt w cat var pri buf p (p + h + l)) total
          else .reject .invalidCrc

/-- Steps 2 and 3 of R120 from scan position `pos`: the message yielded, if any, and the bytes kept. Each pass that goes
on moves the scan position one byte past a rejected marker (R125), so `|buf| + 1` passes are enough (R127, log
entry 12). -/
def scan (w : Wire) (buf : List Byte) : Nat → Nat → Option Decoded × List Byte
  | 0, pos => (none, memDrop buf pos)
  | fuel + 1, pos =>
    match findMarker w buf pos with
    | none => (none, memDrop buf pos)
    | some i =>
      match judge w buf i with
      | .incomplete => (none, memDrop buf i)
      | .reject _ => scan w buf fuel (i + 1)
      | .accept d total => (some d, memDrop buf (i + total))

/-- The scan of a whole buffer, which starts at 0 (R120). -/
def scanBuffer (w : Wire) (buf : List Byte) : Option Decoded × List Byte := scan w buf (buf.length + 1) 0

/-- The result of a scan: `Some(d)` or `None`. -/
def scanResult : Option Decoded → Result
  | some d => .message d
  | none => .noMessage

/-- The whole of R120 on a buffer: the result and the buffer after it. The capacity test comes first and refuses the
bytes whole (R121). -/
def assemble (cfg : Config) (buf newBytes : List Byte) : Result × List Byte :=
  if buf.length + newBytes.length > cfg.cap then (.err .bufferFull, buf)
  else
    let (message, kept) := scanBuffer cfg.wire (memAppend buf newBytes)
    (scanResult message, kept)

/-- The assembler receives bytes: `assemble` on the state. -/
def State.receive (s : State) (newBytes : List Byte) : State :=
  let (result, kept) := assemble s.cfg s.buf newBytes
  (s.setBuf kept).answer result

/-- PROCESS (R120). -/
def execProcess (newBytes : List Byte) (s : State) : Host.Outcome State Fault Refusal :=
  .next (s.receive newBytes)

end Sys2Proof.Machine
end

