-- ==== Sys2Proof/Machine/Frames.lean ====
section
/-!
DEFINITION. The rows of format HDR. Such a row is no operation: the table gives it the layout of a frame and points to
the receive semantics of 43_assembler.md R123. Its meaning here is that the frame arrives: the assembler receives the
frame's bytes, marker first, as one PROCESS (log entry 5). The frame is laid out by the wire constants of the
instance, with the length byte, the reserved header bit and the trailer as the instruction holds them.
-/

namespace Sys2Proof.Machine

/-- The bytes of a Standard frame row in an instance. -/
def standardArrival (w : Wire) (cat : Category) (pri : Priority) (rsv : Bool) (dst src : Addr) (len : Byte)
    (payload : List Byte) (crc : BitVec 16) : List Byte :=
  standardFrame w (packHeader w.hdr (catCode w cat) w.varStandard (priCode w pri) rsv) dst src len payload crc

/-- The bytes of a Compatible frame row in an instance. -/
def compatibleArrival (w : Wire) (cat : Category) (pri : Priority) (rsv : Bool) (dst : Addr) (len : Byte)
    (payload : List Byte) (trl : Byte) : List Byte :=
  compatibleFrame w (packHeader w.hdr (catCode w cat) w.varCompatible (priCode w pri) rsv) dst len payload trl

/-- A marker and a header of a category code given as it stands (30_encoding.md R72). -/
def reservedArrival (w : Wire) (code : BitVec 4) (var : Variant) (pri : Priority) (rsv : Bool) : List Byte :=
  [w.sof, packHeader w.hdr code (varCode w var) (priCode w pri) rsv]

/-- FRAME_COMMAND_STANDARD (30_encoding.md R62). -/
def execFrameCommandStandard (pri : Priority) (rsv : Bool) (dst src : Addr) (len : Byte) (payload : List Byte)
    (crc : BitVec 16) (s : State) : Host.Outcome State Fault Refusal :=
  .next (s.receive (standardArrival s.cfg.wire .command pri rsv dst src len payload crc))

/-- FRAME_COMMAND_COMPATIBLE (30_encoding.md R63). -/
def execFrameCommandCompatible (pri : Priority) (rsv : Bool) (dst : Addr) (len : Byte) (payload : List Byte)
    (trl : Byte) (s : State) : Host.Outcome State Fault Refusal :=
  .next (s.receive (compatibleArrival s.cfg.wire .command pri rsv dst len payload trl))

/-- FRAME_STATUS_STANDARD (30_encoding.md R62). -/
def execFrameStatusStandard (pri : Priority) (rsv : Bool) (dst src : Addr) (len : Byte) (payload : List Byte)
    (crc : BitVec 16) (s : State) : Host.Outcome State Fault Refusal :=
  .next (s.receive (standardArrival s.cfg.wire .status pri rsv dst src len payload crc))

/-- FRAME_STATUS_COMPATIBLE (30_encoding.md R63). -/
def execFrameStatusCompatible (pri : Priority) (rsv : Bool) (dst : Addr) (len : Byte) (payload : List Byte)
    (trl : Byte) (s : State) : Host.Outcome State Fault Refusal :=
  .next (s.receive (compatibleArrival s.cfg.wire .status pri rsv dst len payload trl))

/-- FRAME_COOPERATION_STANDARD (30_encoding.md R62). -/
def execFrameCooperationStandard (pri : Priority) (rsv : Bool) (dst src : Addr) (len : Byte) (payload : List Byte)
    (crc : BitVec 16) (s : State) : Host.Outcome State Fault Refusal :=
  .next (s.receive (standardArrival s.cfg.wire .cooperation pri rsv dst src len payload crc))

/-- FRAME_COOPERATION_COMPATIBLE (30_encoding.md R63). -/
def execFrameCooperationCompatible (pri : Priority) (rsv : Bool) (dst : Addr) (len : Byte) (payload : List Byte)
    (trl : Byte) (s : State) : Host.Outcome State Fault Refusal :=
  .next (s.receive (compatibleArrival s.cfg.wire .cooperation pri rsv dst len payload trl))

/-- FRAME_EXTENDED_STANDARD (30_encoding.md R62). -/
def execFrameExtendedStandard (pri : Priority) (rsv : Bool) (dst src : Addr) (len : Byte) (payload : List Byte)
    (crc : BitVec 16) (s : State) : Host.Outcome State Fault Refusal :=
  .next (s.receive (standardArrival s.cfg.wire .extended pri rsv dst src len payload crc))

/-- FRAME_EXTENDED_COMPATIBLE (30_encoding.md R63). -/
def execFrameExtendedCompatible (pri : Priority) (rsv : Bool) (dst : Addr) (len : Byte) (payload : List Byte)
    (trl : Byte) (s : State) : Host.Outcome State Fault Refusal :=
  .next (s.receive (compatibleArrival s.cfg.wire .extended pri rsv dst len payload trl))

/-- FRAME_RESERVED_CAT_4_7 (30_encoding.md R72): category code `01cc`. -/
def execFrameReservedCat4to7 (cc : BitVec 2) (var : Variant) (pri : Priority) (rsv : Bool) (s : State) :
    Host.Outcome State Fault Refusal :=
  .next (s.receive (reservedArrival s.cfg.wire ((1 : BitVec 2) ++ cc) var pri rsv))

/-- FRAME_RESERVED_CAT_8_15 (30_encoding.md R72): category code `1ccc`. -/
def execFrameReservedCat8to15 (ccc : BitVec 3) (var : Variant) (pri : Priority) (rsv : Bool) (s : State) :
    Host.Outcome State Fault Refusal :=
  .next (s.receive (reservedArrival s.cfg.wire ((1 : BitVec 1) ++ ccc) var pri rsv))

end Sys2Proof.Machine
end

