-- ==== Sys2Proof/Machine/System.lean ====
section
/-!
DEFINITION. Construction (44_system.md R145), the operations RESET (R146) and the reserved code 7 (30_encoding.md R74),
the pseudo-operations DRAIN and DECODE (30_encoding.md R77), and runs of PROCESS as a caller sees them.
-/

namespace Sys2Proof.Machine

/-- The instance a configuration gives, no operation issued (R145, 70_reset_and_hazards.md R170). -/
def freshState (cfg : Config) : State := { buf := [], cfg := cfg, request := [], response := none }

/-- Construction: refused for a capacity below `MAX_WIRE` (R145, 43_assembler.md R139). It is no operation of a running
instance and has no operation code. -/
def construct (cfg : Config) : Host.Outcome State Fault Refusal :=
  if cfg.cap < maxWire then .refused .capacityTooSmall else .next (freshState cfg)

/-- RESET (R146): `buf <- []`, result `Ok(())`, `cfg` untouched. -/
def execReset (s : State) : Host.Outcome State Fault Refusal :=
  .next ((s.setBuf []).answer .ok)

/-- RESERVED_OP7 (30_encoding.md R74 (c)): "the model has no step for it (refused)". The state is the argument of every
meaning and is not read. -/
def execReservedOp7 (_s : State) : Host.Outcome State Fault Refusal :=
  .refused .reservedOperation

/-- DRAIN, `PROCESS []` (30_encoding.md R77 (a)). -/
def drainInstr : Instr := .process []

/-- DECODE (30_encoding.md R77 (b)): PROCESS on a fresh instance. -/
def decodeBytes (cfg : Config) (bytes : List Byte) : Result := (assemble cfg [] bytes).1

/-- The results of a run of PROCESS operations with the given operands, and the buffer after the last. -/
def feed (cfg : Config) : List Byte → List (List Byte) → List Result × List Byte
  | buf, [] => ([], buf)
  | buf, piece :: pieces =>
    let (result, kept) := assemble cfg buf piece
    let (results, last) := feed cfg kept pieces
    (result :: results, last)

/-- The message of a result. -/
def Result.message? : Result → Option Decoded
  | .message d => some d
  | _ => none

/-- The messages among results, in order. -/
def messages (results : List Result) : List Decoded := results.filterMap Result.message?

end Sys2Proof.Machine
end

