-- ==== Sys2Proof/Machine/Dispatch.lean ====
section
/-!
DEFINITION. The dispatch: one arm per instruction, each one call of its meaning.
-/

namespace Sys2Proof.Machine

def exec (i : Instr) (s : State) : Host.Outcome State Fault Refusal :=
  match i with
  | .reset => Sys2Proof.Machine.execReset s
  | .crc4 bytes => Sys2Proof.Machine.execCrc4 bytes s
  | .crc16 bytes => Sys2Proof.Machine.execCrc16 bytes s
  | .classify kind => Sys2Proof.Machine.execClassify kind s
  | .encode cat var pri dst payload => Sys2Proof.Machine.execEncode cat var pri dst payload s
  | .encodei cat var kind dst payload => Sys2Proof.Machine.execEncodei cat var kind dst payload s
  | .process newBytes => Sys2Proof.Machine.execProcess newBytes s
  | .reservedOp7 => Sys2Proof.Machine.execReservedOp7 s
  | .frameCommandStandard pri rsv dst src len payload crc => Sys2Proof.Machine.execFrameCommandStandard pri rsv dst src len payload crc s
  | .frameCommandCompatible pri rsv dst len payload trl => Sys2Proof.Machine.execFrameCommandCompatible pri rsv dst len payload trl s
  | .frameStatusStandard pri rsv dst src len payload crc => Sys2Proof.Machine.execFrameStatusStandard pri rsv dst src len payload crc s
  | .frameStatusCompatible pri rsv dst len payload trl => Sys2Proof.Machine.execFrameStatusCompatible pri rsv dst len payload trl s
  | .frameCooperationStandard pri rsv dst src len payload crc => Sys2Proof.Machine.execFrameCooperationStandard pri rsv dst src len payload crc s
  | .frameCooperationCompatible pri rsv dst len payload trl => Sys2Proof.Machine.execFrameCooperationCompatible pri rsv dst len payload trl s
  | .frameExtendedStandard pri rsv dst src len payload crc => Sys2Proof.Machine.execFrameExtendedStandard pri rsv dst src len payload crc s
  | .frameExtendedCompatible pri rsv dst len payload trl => Sys2Proof.Machine.execFrameExtendedCompatible pri rsv dst len payload trl s
  | .frameReservedCat4to7 cc var pri rsv => Sys2Proof.Machine.execFrameReservedCat4to7 cc var pri rsv s
  | .frameReservedCat8to15 ccc var pri rsv => Sys2Proof.Machine.execFrameReservedCat8to15 ccc var pri rsv s

end Sys2Proof.Machine
end

