-- ==== Sys2Proof/Machine/Step.lean ====
section
/-!
DEFINITION. One step: the block runs the oldest operation the caller has issued, whole (20_memory.md R43, R46); with
none issued it does nothing (60_exceptions.md R164, 70_reset_and_hazards.md R172).
-/

namespace Sys2Proof.Machine

def step (s : State) : Host.Outcome State Fault Refusal :=
  match fetch s with
  | none => .next s
  | some (.ok (i, s')) => exec i s'
  | some (.error e) => .refused (.malformedRequest e)

/-- `s` with the instruction of a table word as the one issued operation. The spec loads no program: operations come
from the caller (log entry 3), and this is the caller issuing that one. -/
def State.withFetchWord (s : State) (nbits w : Nat) : State := { s with request := tableWordRequest nbits w }

end Sys2Proof.Machine
end

