-- ==== Sys2Proof/Machine/Flags.lean ====
section
/-!
DEFINITION. What stands in place of flags. The block has no status flags, condition codes or sticky bits
(10_state.md R25); the only code that any rule gives an outcome is the result status of 30_encoding.md R71, and the
only conditions are the labels of 60_exceptions.md R153 and the derived assembler state of 10_state.md R30. None of
them is stored.
-/

namespace Sys2Proof.Machine

/-- The result status `st` (30_encoding.md R71). -/
def Result.status : Result → BitVec 2
  | .ok => 0
  | .noMessage => 0
  | .okCrc4 _ => 1
  | .okCrc16 _ => 1
  | .okPriority _ => 1
  | .okFrame _ => 1
  | .message _ => 1
  | .err .payloadTooLarge => 2
  | .err .bufferFull => 3

/-- The label of a verdict (60_exceptions.md R153): an incomplete candidate carries FrameTooShort. -/
def Verdict.label : Verdict → Option Failure
  | .incomplete => some .frameTooShort
  | .reject reason => some reason
  | .accept _ _ => none

/-- The assembler's state between operations, a function of `buf` alone (10_state.md R30); Resyncing never holds
there. -/
def assemblerState (w : Wire) : List Byte → AssemblerState
  | [] => .empty
  | b :: _ => if b = w.sof then .frameDetected else .scanning

end Sys2Proof.Machine
end

