-- ==== Sys2Proof/Safety.lean ====
section
/-!
DEFINITION. The terms claims are stated in: the invariant of an instance, the scan and the reception of bytes as
relations (no fuel, no search function), the frames a message has on the wire, and single-bit flips.
-/

namespace Sys2Proof.Machine

/-- The invariant of an instance: the buffer is within its capacity (10_state.md R21) and the capacity is legal
(00_scope.md R7). -/
structure State.Inv (s : State) : Prop where
  memory : Memory.wf s.cfg.cap s.buf
  capacity : maxWire ≤ s.cfg.cap

/-- No byte of a buffer is the marker. -/
abbrev MarkerFree (w : Wire) (buf : List Byte) : Prop := w.sof ∉ buf

/-- A verdict is a rejection. -/
def Verdict.isReject : Verdict → Bool
  | .reject _ => true
  | _ => false

/-- `i` is the least index from `pos` on at which `buf` holds the marker (43_assembler.md R124). -/
structure FirstMarker (w : Wire) (buf : List Byte) (pos i : Nat) : Prop where
  from_pos : pos ≤ i
  marker : buf[i]? = some w.sof
  least : ∀ j, pos ≤ j → j < i → buf[j]? ≠ some w.sof

/-- The scan positions one PROCESS passes through: 0, and after a rejection the byte past the failed marker
(43_assembler.md R120, R125). -/
inductive ScanReaches (w : Wire) (buf : List Byte) : Nat → Prop
  | start : ScanReaches w buf 0
  | resume {pos i : Nat} : ScanReaches w buf pos → FirstMarker w buf pos i → (judge w buf i).isReject = true →
      ScanReaches w buf (i + 1)

/-- What PROCESS of `bytes` makes of a state, as 43_assembler.md R120 and R126 say it: refused whole, or ended at a scan
position with no marker after it, at an incomplete candidate, or at an accepted one. Nothing but `buf` and the result
differs from `s`. -/
inductive Received (s : State) (bytes : List Byte) : State → Prop
  | full : s.buf.length + bytes.length > s.cfg.cap →
      Received s bytes { s with response := some (.err .bufferFull) }
  | unmarked (pos : Nat) : s.buf.length + bytes.length ≤ s.cfg.cap →
      ScanReaches s.cfg.wire (s.buf ++ bytes) pos →
      (∀ i, pos ≤ i → (s.buf ++ bytes)[i]? ≠ some s.cfg.wire.sof) →
      Received s bytes { s with buf := (s.buf ++ bytes).drop pos, response := some .noMessage }
  | waiting (pos i : Nat) : s.buf.length + bytes.length ≤ s.cfg.cap →
      ScanReaches s.cfg.wire (s.buf ++ bytes) pos →
      FirstMarker s.cfg.wire (s.buf ++ bytes) pos i →
      judge s.cfg.wire (s.buf ++ bytes) i = .incomplete →
      Received s bytes { s with buf := (s.buf ++ bytes).drop i, response := some .noMessage }
  | accepted (pos i : Nat) (d : Decoded) (total : Nat) : s.buf.length + bytes.length ≤ s.cfg.cap →
      ScanReaches s.cfg.wire (s.buf ++ bytes) pos →
      FirstMarker s.cfg.wire (s.buf ++ bytes) pos i →
      judge s.cfg.wire (s.buf ++ bytes) i = .accept d total →
      Received s bytes { s with buf := (s.buf ++ bytes).drop (i + total), response := some (.message d) }

/-- What a buffer looks like after a PROCESS that returned `None` (43_assembler.md R133): it holds no marker, or it
begins with one whose candidate is incomplete and shorter than 65 bytes. -/
def Quiescent (w : Wire) (buf : List Byte) : Prop :=
  MarkerFree w buf ∨ (buf.head? = some w.sof ∧ buf.length < maxWire ∧ judge w buf 0 = .incomplete)

/-- The header byte of a message with the reserved bit given. -/
def messageHeader (w : Wire) (d : Decoded) (rsv : Bool) : Byte :=
  packHeader w.hdr (catCode w d.category) (varCode w d.variant) (priCode w d.priority) rsv

/-- The frame of a message on the wire (30_encoding.md R62, R63) with the reserved header bit given and the integrity
field right. A Standard frame needs a source address. -/
def messageFrame (w : Wire) (d : Decoded) (rsv : Bool) : List Byte :=
  let hdr := messageHeader w d rsv
  let len := lengthByte d.payload
  match d.variant with
  | .standard =>
    let src := d.src.getD 0
    standardFrame w hdr d.dst src len d.payload (crc16 w (standardBody w hdr d.dst src len d.payload))
  | .compatible =>
    compatibleFrame w hdr d.dst len d.payload (narrowTrailer w (compatibleBody w hdr d.dst len d.payload))

/-- The messages PROCESS can yield: at most 56 payload bytes, and a source address exactly in the Standard variant. -/
def Decoded.wf (d : Decoded) : Bool :=
  d.payload.length ≤ maxPayload && (d.src.isSome == (d.variant == .standard))

/-- `bytes` with bit `i` of the byte at index `k` flipped. -/
def flipBit (bytes : List Byte) (k i : Nat) : List Byte := bytes.modify k (· ^^^ ((1 : Byte) <<< i))

/-- The numbers of 30_encoding.md R65. -/
def categoryNumber : Category → Nat
  | .command => 0
  | .status => 1
  | .cooperation => 2
  | .extended => 3

/-- The numbers of the variant bit in 30_encoding.md R64. -/
def variantNumber : Variant → Nat
  | .standard => 0
  | .compatible => 1

/-- The byte-at-a-time form of CRC16 (40_crc.md R84). -/
def crc16ByteWise (bytes : List Byte) : BitVec 16 :=
  let shift (c : BitVec 16) : BitVec 16 := if c.getLsbD 15 then (c <<< 1) ^^^ 0x1021 else c <<< 1
  bytes.foldl (fun (c : BitVec 16) (b : Byte) => Nat.iterate shift 8 (c ^^^ (BitVec.setWidth 16 b <<< 8))) 0xFFFF

/-- The operations that are functions of the configuration and their operands (20_memory.md R44). -/
def isPure : Instr → Bool
  | .crc4 _ | .crc16 _ | .classify _ | .encode _ _ _ _ _ | .encodei _ _ _ _ _ => true
  | .reset | .process _ | .reservedOp7 => false
  | .frameCommandStandard _ _ _ _ _ _ _ | .frameStatusStandard _ _ _ _ _ _ _ => false
  | .frameCooperationStandard _ _ _ _ _ _ _ | .frameExtendedStandard _ _ _ _ _ _ _ => false
  | .frameCommandCompatible _ _ _ _ _ _ | .frameStatusCompatible _ _ _ _ _ _ => false
  | .frameCooperationCompatible _ _ _ _ _ _ | .frameExtendedCompatible _ _ _ _ _ _ => false
  | .frameReservedCat4to7 _ _ _ _ | .frameReservedCat8to15 _ _ _ _ => false

end Sys2Proof.Machine
end

