-- ==== Sys2Proof/Certificates/Slice0/Obligations.lean ====
section
/-!
DEFINITION. The statements for the provers. "The model's own" in a docstring marks a clause that no rule of spec/ gives
and names its log entry; the fields `request` and `response` of a state are the model's own throughout (log entries 2
and 3), and `response := some r` is the model's way of saying that an operation returns `r`.
-/

open Sys2Proof Sys2Proof.Machine

/-! ### Construction and reset -/

/-- 44_system.md R145, 70_reset_and_hazards.md R170: an instance begins with its configuration and an empty buffer; a
capacity below 65 is refused. -/
def Obligations.ConstructionGivesConfigurationAndEmptyBuffer : Prop :=
  ∀ cfg : Config,
    (65 ≤ cfg.cap → ∃ t, construct cfg = .next t ∧ t.buf = [] ∧ t.cfg = cfg ∧
      assemblerState t.cfg.wire t.buf = .empty) ∧
    (cfg.cap < 65 → construct cfg = .refused .capacityTooSmall)

/-- 10_state.md R32 with the defaults of 00_scope.md R6 and 41_classifier.md R96, written out. The value of
`LOCAL_ADDR` is the model's own (log entry 4) and is not stated. -/
def Obligations.ResetStateHoldsTheDefaults : Prop :=
  State.reset.buf = [] ∧ State.reset.cfg.cap = 512 ∧
  State.reset.cfg.wire =
    { sof := 0xA5, hdr := { catLo := 4, varBit := 3, priLo := 1, rsvBit := 0 },
      catCommand := 0, catStatus := 1, catCooperation := 2, catExtended := 3,
      priLow := 0, priNormal := 1, priHigh := 2, priCritical := 3, varStandard := 0, varCompatible := 1,
      msbFirst := true, crc16Poly := 0x1021, crc16Init := 0xFFFF, crc4Poly := 0x3, crc4Init := 0xF } ∧
  State.reset.cfg.classTable =
    { key := .high, pointerMotion := .high, indicatorState := .normal, batteryLevel := .low, configSync := .low,
      coordination := .critical } ∧
  assemblerState State.reset.cfg.wire State.reset.buf = .empty

/-- RESET as 44_system.md has it. That it empties the buffer and nothing else is the spec's own reading, marked so there
and decided in 92_eei_decisions.md D24. -/
def Obligations.ResetOperationEmptiesTheBufferAndNothingElse : Prop :=
  ∀ s : State, exec .reset s = .next { s with buf := [], response := some .ok }

/-! ### The CRC engine -/

/-- 40_crc.md R82: CRC16 returns the wide CRC of its operand under the constants of the instance and changes nothing;
with the default constants, the corner values and the example of the rule. -/
def Obligations.Crc16ReturnsTheWideCrc : Prop :=
  (∀ (bytes : List Byte) (s : State),
    exec (.crc16 bytes) s =
      .next { s with response := some (.okCrc16 (crc s.cfg.wire.crc16Poly s.cfg.wire.crc16Init bytes)) }) ∧
  defaultWire.crc16Poly = 0x1021 ∧ defaultWire.crc16Init = 0xFFFF ∧
  crc (W := 16) 0x1021 0xFFFF [] = 0xFFFF ∧ crc (W := 16) 0x1021 0xFFFF [0x00] = 0xE1F0 ∧
  crc (W := 16) 0x1021 0xFFFF [0xFF] = 0xFF00 ∧ crc (W := 16) 0x1021 0xFFFF [0x00, 0x00] = 0x1D0F ∧
  crc (W := 16) 0x1021 0xFFFF [0x31, 0x32, 0x33, 0x34, 0x35, 0x36, 0x37, 0x38, 0x39] = 0x29B1

/-- 40_crc.md R83: CRC4 returns the narrow CRC of its operand under the constants of the instance and changes nothing;
with the default constants, the corner values and the example of the rule. -/
def Obligations.Crc4ReturnsTheNarrowCrc : Prop :=
  (∀ (bytes : List Byte) (s : State),
    exec (.crc4 bytes) s =
      .next { s with response := some (.okCrc4 (crc s.cfg.wire.crc4Poly s.cfg.wire.crc4Init bytes)) }) ∧
  defaultWire.crc4Poly = 0x3 ∧ defaultWire.crc4Init = 0xF ∧
  crc (W := 4) 0x3 0xF [] = 0xF ∧ crc (W := 4) 0x3 0xF [0x00] = 0x6 ∧
  crc (W := 4) 0x3 0xF [0xFF] = 0x2 ∧ crc (W := 4) 0x3 0xF [0x00, 0x00] = 0xD ∧
  crc (W := 4) 0x3 0xF [0x31, 0x32, 0x33, 0x34, 0x35, 0x36, 0x37, 0x38, 0x39] = 0x4

/-- 40_crc.md R89: the value after each of the eight steps over the byte `0x00`. -/
def Obligations.CrcStepTracesOfTheZeroByte : Prop :=
  ([7, 6, 5, 4, 3, 2, 1, 0].scanl (fun c i => crcBit (W := 16) 0x1021 c ((0x00 : Byte).getLsbD i)) 0xFFFF).tail =
    [0xEFDF, 0xCF9F, 0x8F1F, 0x0E1F, 0x1C3E, 0x387C, 0x70F8, 0xE1F0] ∧
  ([7, 6, 5, 4, 3, 2, 1, 0].scanl (fun c i => crcBit (W := 4) 0x3 c ((0x00 : Byte).getLsbD i)) 0xF).tail =
    [0xD, 0x9, 0x1, 0x2, 0x4, 0x8, 0x3, 0x6]

/-- 40_crc.md R84: the byte-at-a-time form of CRC16 is equal to the bit-serial loop. -/
def Obligations.Crc16EqualsItsByteAtATimeForm : Prop :=
  ∀ bytes : List Byte, crc16 defaultWire bytes = crc16ByteWise bytes

/-- 40_crc.md R85: appending the wide CRC, most significant byte first, gives the residue zero; and only those two
bytes do, so that a frame passes exactly when the CRC of body and trailer together is zero. -/
def Obligations.WideCrcResidueIsZeroExactlyForTheRightTrailer : Prop :=
  ∀ (m : List Byte) (a b : Byte),
    crc16 defaultWire (m ++ [a, b]) = 0 ↔ a = (crc16 defaultWire m).extractLsb' 8 8 ∧ b = (crc16 defaultWire m).extractLsb' 0 8

/-- 40_crc.md R86: the seed cancels between two messages of equal length, for every width, polynomial and seed. -/
def Obligations.CrcIsLinearInTheMessage : Prop :=
  ∀ (W : Nat) (poly init : BitVec W) (x y : List Byte), x.length = y.length →
    crc poly init x ^^^ crc poly init y = crc poly 0 (List.zipWith (· ^^^ ·) x y)

/-- 40_crc.md R86: flipping any single bit of a body changes its CRC16 and its CRC4. -/
def Obligations.SingleBitFlipChangesBothCrcs : Prop :=
  ∀ (m : List Byte) (k i : Nat), k < m.length → i < 8 →
    crc16 defaultWire (flipBit m k i) ≠ crc16 defaultWire m ∧ crc4 defaultWire (flipBit m k i) ≠ crc4 defaultWire m

/-- 40_crc.md R80: in polynomial terms the CRC is the remainder of `x^W * M(x)` plus the seed's contribution divided by
`G(x) = x^W + poly(x)` over GF(2), the message's first bit being its highest coefficient. -/
def Obligations.CrcIsThePolynomialRemainder : Prop :=
  ∀ (W : Nat) (poly init : BitVec W) (bytes : List Byte), 0 < W →
    let bit : Bool → Polynomial (ZMod 2) := fun b => if b then 1 else 0
    let ofBits : List Bool → Polynomial (ZMod 2) := fun l => l.foldl (fun p b => Polynomial.X * p + bit b) 0
    let ofVec : BitVec W → Polynomial (ZMod 2) := fun v => ofBits ((List.range W).reverse.map (fun i => v.getLsbD i))
    let message : Polynomial (ZMod 2) :=
      ofBits (bytes.flatMap (fun b => [7, 6, 5, 4, 3, 2, 1, 0].map (fun i => b.getLsbD i)))
    ofVec (crc poly init bytes) =
      (Polynomial.X ^ W * message + Polynomial.X ^ (8 * bytes.length) * ofVec init) %ₘ (Polynomial.X ^ W + ofVec poly)

/-! ### The classifier -/

/-- 41_classifier.md R97: CLASSIFY returns the table's entry for each kind, whatever the table, and changes nothing. -/
def Obligations.ClassifyReturnsTheTableEntry : Prop :=
  ∀ s : State,
    exec (.classify .key) s = .next { s with response := some (.okPriority s.cfg.classTable.key) } ∧
    exec (.classify .pointerMotion) s = .next { s with response := some (.okPriority s.cfg.classTable.pointerMotion) } ∧
    exec (.classify .indicatorState) s = .next { s with response := some (.okPriority s.cfg.classTable.indicatorState) } ∧
    exec (.classify .batteryLevel) s = .next { s with response := some (.okPriority s.cfg.classTable.batteryLevel) } ∧
    exec (.classify .configSync) s = .next { s with response := some (.okPriority s.cfg.classTable.configSync) } ∧
    exec (.classify .coordination) s = .next { s with response := some (.okPriority s.cfg.classTable.coordination) }

/-- 41_classifier.md R96: the reference mapping, as CLASSIFY returns it from an instance with the default table. -/
def Obligations.ReferenceMappingOfKinds : Prop :=
  ∀ (s : State) (kind : Kind), s.cfg.classTable = defaultClassTable →
    exec (.classify kind) s = .next { s with response := some (.okPriority
      (match kind with
        | .key => .high
        | .pointerMotion => .high
        | .indicatorState => .normal
        | .batteryLevel => .low
        | .configSync => .low
        | .coordination => .critical)) }

/-! ### The encoder -/

/-- 42_encoder.md R101 with the default wire constants: the error first, then the bytes of either variant, written out
with numbers; nothing but the result changes. -/
def Obligations.EncodeWritesTheFrameOrRaisesPayloadTooLarge : Prop :=
  ∀ (s : State) (cat : Category) (var : Variant) (pri : Priority) (dst : Addr) (payload : List Byte),
    s.cfg.wire = defaultWire →
    (payload.length > 56 →
      exec (.encode cat var pri dst payload) s = .next { s with response := some (.err .payloadTooLarge) }) ∧
    (payload.length ≤ 56 →
      let hdr : Byte := BitVec.ofNat 8 (categoryNumber cat * 16 + variantNumber var * 8 + priorityRank pri * 2)
      let len : Byte := BitVec.ofNat 8 payload.length
      let standardBody : List Byte :=
        [hdr, dst.extractLsb' 8 8, dst.extractLsb' 0 8, s.cfg.localAddr.extractLsb' 8 8, s.cfg.localAddr.extractLsb' 0 8, len]
          ++ payload
      let compatibleBody : List Byte := [hdr, dst.extractLsb' 8 8, dst.extractLsb' 0 8, len] ++ payload
      let k : BitVec 16 := crc 0x1021 0xFFFF standardBody
      let c : BitVec 4 := crc 0x3 0xF compatibleBody
      exec (.encode cat var pri dst payload) s = .next { s with response := some (.okFrame
        (match var with
          | .standard => [0xA5] ++ standardBody ++ [k.extractLsb' 8 8, k.extractLsb' 0 8]
          | .compatible => [0xA5] ++ compatibleBody ++ [c.setWidth 8])) })

/-- 42_encoder.md R102: the length of the result, at most 65 and 62, whatever the configuration. -/
def Obligations.EncodedFrameLength : Prop :=
  ∀ (cfg : Config) (cat : Category) (pri : Priority) (dst : Addr) (payload f : List Byte),
    (encodeFrame cfg cat .standard pri dst payload = .ok f → f.length = 9 + payload.length ∧ f.length ≤ 65) ∧
    (encodeFrame cfg cat .compatible pri dst payload = .ok f → f.length = 6 + payload.length ∧ f.length ≤ 62)

/-- 42_encoder.md R104: ENCODEI is ENCODE with the priority `CLASS_TABLE(kind)`, and changes nothing but the result. -/
def Obligations.EncodeiIsEncodeWithTheClassifiedPriority : Prop :=
  ∀ (s : State) (cat : Category) (var : Variant) (kind : Kind) (dst : Addr) (payload : List Byte),
    let pri : Priority := match kind with
      | .key => s.cfg.classTable.key
      | .pointerMotion => s.cfg.classTable.pointerMotion
      | .indicatorState => s.cfg.classTable.indicatorState
      | .batteryLevel => s.cfg.classTable.batteryLevel
      | .configSync => s.cfg.classTable.configSync
      | .coordination => s.cfg.classTable.coordination
    ∃ r, exec (.encodei cat var kind dst payload) s = .next { s with response := some r } ∧
      exec (.encode cat var pri dst payload) s = .next { s with response := some r }

/-- 60_exceptions.md R151: PayloadTooLarge is the result of ENCODE and ENCODEI exactly for payloads above 56 bytes, of
no other operation, has status 2, and changes no state. -/
def Obligations.PayloadTooLargeExactlyForLongPayloads : Prop :=
  (∀ (s : State) (cat : Category) (var : Variant) (pri : Priority) (kind : Kind) (dst : Addr) (payload : List Byte),
    (payload.length > 56 ↔
      exec (.encode cat var pri dst payload) s = .next { s with response := some (.err .payloadTooLarge) }) ∧
    (payload.length > 56 ↔
      exec (.encodei cat var kind dst payload) s = .next { s with response := some (.err .payloadTooLarge) })) ∧
  (∀ (i : Instr) (s t : State), (∀ c v p a b, i ≠ .encode c v p a b) → (∀ c v k a b, i ≠ .encodei c v k a b) →
    exec i s = .next t → t.response ≠ some (.err .payloadTooLarge)) ∧
  Result.status (.err .payloadTooLarge) = 2

/-- 20_memory.md R44: CRC4, CRC16, CLASSIFY, ENCODE and ENCODEI change nothing but the result, and the result depends on
the operands and `cfg` alone. -/
def Obligations.PureOperationsAreFunctionsOfConfigurationAndOperands : Prop :=
  ∀ i : Instr, isPure i = true →
    ∃ result : Config → Result, ∀ s : State, exec i s = .next { s with response := some (result s.cfg) }

/-! ### The assembler -/

/-- 43_assembler.md R124: `FindMarker(pos)` is the least index from `pos` on that holds the marker, or none when there
is none. -/
def Obligations.FindMarkerIsTheFirstMarkerFromThePosition : Prop :=
  ∀ (w : Wire) (buf : List Byte) (pos : Nat),
    (∀ i, findMarker w buf pos = some i ↔ FirstMarker w buf pos i) ∧
    (findMarker w buf pos = none ↔ ∀ i, pos ≤ i → buf[i]? ≠ some w.sof)

/-- 43_assembler.md R120: PROCESS always completes, and what it makes of the state is what the rule's loop makes of it
(`Received`: refused whole, or the scan from position 0 with one step past each rejected marker). -/
def Obligations.ProcessFollowsTheScanLoop : Prop :=
  ∀ (s : State) (newBytes : List Byte), ∃ t, exec (.process newBytes) s = .next t ∧ Received s newBytes t

/-- 43_assembler.md R127: any fuel above the number of bytes left to scan gives the same scan, so the bound the model
uses cuts no scan short. -/
def Obligations.ScanIsTheSameWithAnyEnoughFuel : Prop :=
  ∀ (w : Wire) (buf : List Byte) (pos n m : Nat), pos ≤ buf.length → buf.length - pos < n → buf.length - pos < m →
    scan w buf n pos = scan w buf m pos

/-- 43_assembler.md R123, last paragraph: appending bytes never changes a Reject or an Accept. -/
def Obligations.VerdictsAreStableUnderAppending : Prop :=
  ∀ (w : Wire) (buf more : List Byte) (p : Nat), p < buf.length → judge w buf p ≠ .incomplete →
    judge w (buf ++ more) p = judge w buf p

/-- 43_assembler.md R123 and 30_encoding.md R62 to R70, R73: at a marker, `Judge` accepts `d` exactly when the bytes from
there begin with the frame of `d`, with the reserved header bit either way and the integrity field right. -/
def Obligations.AcceptedCandidatesAreExactlyTheFrames : Prop :=
  ∀ (w : Wire) (buf : List Byte) (p : Nat) (d : Decoded) (total : Nat), wireWf w = true → buf[p]? = some w.sof →
    (judge w buf p = .accept d total ↔
      d.wf = true ∧ ∃ rsv rest, buf.drop p = messageFrame w d rsv ++ rest ∧ total = (messageFrame w d rsv).length)

/-- 30_encoding.md R72, R78 and 43_assembler.md R123 with the default wire constants: a header byte from `0x40` up is
rejected as a reserved category as soon as it is there, whatever follows, and a header byte below `0x40` never is. -/
def Obligations.ReservedCategoriesAreRejectedAtOnce : Prop :=
  ∀ (buf : List Byte) (p : Nat) (h : Byte), buf[p + 1]? = some h →
    (0x40 ≤ h.toNat → judge defaultWire buf p = .reject .unknownFrameCategory) ∧
    (h.toNat < 0x40 → judge defaultWire buf p ≠ .reject .unknownFrameCategory)

/-- 30_encoding.md R74 (a), R68 and 43_assembler.md R123 with the default wire constants: under a known category a length
byte of 57 to 255 is rejected as soon as it is there, whatever follows, and one up to 56 never is. -/
def Obligations.LengthsAboveFiftySixAreRejectedAtOnce : Prop :=
  ∀ (buf : List Byte) (p : Nat) (h len : Byte), buf[p + 1]? = some h → h.toNat < 0x40 →
    buf[p + (if h.getLsbD 3 then 4 else 6)]? = some len →
    (56 < len.toNat → judge defaultWire buf p = .reject .invalidLength) ∧
    (len.toNat ≤ 56 → judge defaultWire buf p ≠ .reject .invalidLength)

/-- 30_encoding.md R69 with the default wire constants: a complete Standard candidate of valid category and length is
accepted exactly when the received field equals the CRC16 of its body, equivalently when the CRC16 of body and trailer
together is zero, and otherwise rejected as InvalidCrc. -/
def Obligations.WideIntegrityFieldDecidesCompleteCandidates : Prop :=
  ∀ (buf : List Byte) (p : Nat) (h len hi lo : Byte), buf[p + 1]? = some h → h.toNat < 0x40 → h.getLsbD 3 = false →
    buf[p + 6]? = some len → len.toNat ≤ 56 → buf[p + 7 + len.toNat]? = some hi → buf[p + 8 + len.toNat]? = some lo →
    (hi ++ lo = crc (W := 16) 0x1021 0xFFFF ((buf.drop (p + 1)).take (6 + len.toNat)) ↔
      crc (W := 16) 0x1021 0xFFFF ((buf.drop (p + 1)).take (8 + len.toNat)) = 0) ∧
    (hi ++ lo = crc (W := 16) 0x1021 0xFFFF ((buf.drop (p + 1)).take (6 + len.toNat)) →
      ∃ d, judge defaultWire buf p = .accept d (9 + len.toNat)) ∧
    (hi ++ lo ≠ crc (W := 16) 0x1021 0xFFFF ((buf.drop (p + 1)).take (6 + len.toNat)) →
      judge defaultWire buf p = .reject .invalidCrc)

/-- 30_encoding.md R70 with the default wire constants: a complete Compatible candidate of valid category and length is
accepted exactly when the whole trailer byte equals the zero-extended CRC4 of its body; a trailer whose upper four bits
are not zero is rejected whatever its lower four. -/
def Obligations.NarrowIntegrityByteDecidesCompleteCandidates : Prop :=
  ∀ (buf : List Byte) (p : Nat) (h len trl : Byte), buf[p + 1]? = some h → h.toNat < 0x40 → h.getLsbD 3 = true →
    buf[p + 4]? = some len → len.toNat ≤ 56 → buf[p + 5 + len.toNat]? = some trl →
    (trl = (crc (W := 4) 0x3 0xF ((buf.drop (p + 1)).take (4 + len.toNat))).setWidth 8 →
      ∃ d, judge defaultWire buf p = .accept d (6 + len.toNat)) ∧
    (trl ≠ (crc (W := 4) 0x3 0xF ((buf.drop (p + 1)).take (4 + len.toNat))).setWidth 8 →
      judge defaultWire buf p = .reject .invalidCrc) ∧
    (trl.extractLsb' 4 4 ≠ 0 → judge defaultWire buf p = .reject .invalidCrc)

/-- 40_crc.md R86 with the default wire constants: flipping one bit of an encoded frame makes the marker no marker, or
makes its candidate rejected with certainty, whatever bytes follow, except for the variant bit and the length byte. -/
def Obligations.SingleBitFlipsOfAFrameAreRejected : Prop :=
  ∀ (cfg : Config) (cat : Category) (var : Variant) (pri : Priority) (dst : Addr) (payload f rest : List Byte) (k i : Nat),
    cfg.wire = defaultWire → encodeFrame cfg cat var pri dst payload = .ok f → k < f.length → i < 8 →
    (k = 0 → (flipBit f k i)[0]? ≠ some 0xA5) ∧
    (k ≠ 0 → ¬(k = 1 ∧ i = 3) → k ≠ (match var with | .standard => 6 | .compatible => 4) →
      (judge defaultWire (flipBit f k i ++ rest) 0).isReject = true)

/-- 60_exceptions.md R152, 43_assembler.md R138: BufferFull is the result of PROCESS exactly when the bytes do not fit,
of no operation that is not a reception of bytes, has status 3, and changes no state. That a frame row is a reception
of bytes is the model's own (log entry 5). -/
def Obligations.BufferFullExactlyWhenTheBytesDoNotFit : Prop :=
  (∀ (s t : State) (newBytes : List Byte), exec (.process newBytes) s = .next t →
    (t.response = some (.err .bufferFull) ↔ s.buf.length + newBytes.length > s.cfg.cap) ∧
    (t.response = some (.err .bufferFull) → t = { s with response := some (.err .bufferFull) })) ∧
  (∀ (i : Instr) (s t : State), isPure i = true ∨ i = .reset → exec i s = .next t →
    t.response ≠ some (.err .bufferFull)) ∧
  Result.status (.err .bufferFull) = 3

/-- 10_state.md R22: PROCESS appends its operand whole and removes a prefix, or on BufferFull does neither; RESET removes
everything; the pure operations leave the buffer alone. -/
def Obligations.BufferChangesOnlyByAppendingAndDroppingAPrefix : Prop :=
  (∀ (s t : State) (newBytes : List Byte), exec (.process newBytes) s = .next t →
    if s.buf.length + newBytes.length > s.cfg.cap then t.buf = s.buf
    else ∃ n, n ≤ (s.buf ++ newBytes).length ∧ t.buf = (s.buf ++ newBytes).drop n) ∧
  (∀ s t : State, exec .reset s = .next t → t.buf = []) ∧
  (∀ (i : Instr) (s t : State), isPure i = true → exec i s = .next t → t.buf = s.buf)

/-- 43_assembler.md R133: after a PROCESS that returned `None`, `PROCESS []` returns `None` again and leaves the state as
it was; the buffer holds no marker, or begins with one, has fewer than 65 bytes, and `Judge(0)` is Incomplete. -/
def Obligations.NoneIsQuiescent : Prop :=
  ∀ (s t : State) (newBytes : List Byte), exec (.process newBytes) s = .next t → t.response = some .noMessage →
    exec (.process []) t = .next t ∧ Quiescent t.cfg.wire t.buf

/-- 43_assembler.md R133, "Draining": from any buffer within its capacity, `PROCESS []` yields finitely many messages,
at most one for every six bytes buffered, and then `None`. -/
def Obligations.DrainingEndsInNone : Prop :=
  ∀ (cfg : Config) (buf : List Byte), buf.length ≤ cfg.cap →
    ∃ (ds : List Decoded) (last : List Byte), 6 * ds.length ≤ buf.length ∧
      feed cfg buf (List.replicate (ds.length + 1) []) = (ds.map .message ++ [.noMessage], last)

/-- 43_assembler.md R135, 42_encoder.md R106: what ENCODE wrote, PROCESS on an empty buffer returns, with the source
address exactly in the Standard variant, and leaves the buffer empty; DECODE returns the same. -/
def Obligations.EncodedFramesDecodeToWhatWasEncoded : Prop :=
  ∀ (s : State) (cat : Category) (var : Variant) (pri : Priority) (dst : Addr) (payload f : List Byte),
    wireWf s.cfg.wire = true → s.buf = [] → encodeFrame s.cfg cat var pri dst payload = .ok f → f.length ≤ s.cfg.cap →
    let d : Decoded :=
      { category := cat, variant := var, priority := pri, dst := dst,
        src := (match var with | .standard => some s.cfg.localAddr | .compatible => none), payload := payload }
    exec (.process f) s = .next { s with buf := [], response := some (.message d) } ∧ decodeBytes s.cfg f = .message d

/-- 43_assembler.md R136: two ways of cutting one stream, with any number of empty pieces among them, that raise no
BufferFull and both end drained (their last operation returned `None`) yield the same messages in the same order and end
with the same buffer, from any buffer and under any configuration. -/
def Obligations.FragmentationDoesNotMatter : Prop :=
  ∀ (cfg : Config) (buf : List Byte) (p q : List (List Byte)), p.flatten = q.flatten →
    .err .bufferFull ∉ (feed cfg buf p).1 → .err .bufferFull ∉ (feed cfg buf q).1 →
    (feed cfg buf p).1.getLast? = some .noMessage → (feed cfg buf q).1.getLast? = some .noMessage →
    messages (feed cfg buf p).1 = messages (feed cfg buf q).1 ∧ (feed cfg buf p).2 = (feed cfg buf q).2

/-- 43_assembler.md R134, R128: any number of frames one behind the other in an empty buffer, the reserved header bit of
each either way, are yielded in stream order, one for each operation, and then `None`; the buffer is empty after them. -/
def Obligations.FramesAreYieldedInStreamOrder : Prop :=
  ∀ (cfg : Config) (frames : List (Decoded × Bool)), wireWf cfg.wire = true → (∀ x ∈ frames, x.1.wf = true) →
    (frames.flatMap (fun x => messageFrame cfg.wire x.1 x.2)).length ≤ cfg.cap →
    feed cfg [] (frames.flatMap (fun x => messageFrame cfg.wire x.1 x.2) :: List.replicate frames.length []) =
      (frames.map (fun x => .message x.1) ++ [.noMessage], [])

/-- 43_assembler.md R137 (a): garbage in which every marker is rejected, then two encoded frames: PROCESS of the stream
and draining yields the two messages and `None`, and empties the buffer. -/
def Obligations.ResynchronisationLosesNoFrame : Prop :=
  ∀ (cfg : Config) (g a b : List Byte) (ca cb : Category) (va vb : Variant) (pa pb : Priority) (da db : Addr)
    (xa xb : List Byte),
    wireWf cfg.wire = true → encodeFrame cfg ca va pa da xa = .ok a → encodeFrame cfg cb vb pb db xb = .ok b →
    (g ++ a ++ b).length ≤ cfg.cap →
    (∀ i, i < g.length → (g ++ a ++ b)[i]? = some cfg.wire.sof → (judge cfg.wire (g ++ a ++ b) i).isReject = true) →
    let src (v : Variant) : Option Addr := match v with | .standard => some cfg.localAddr | .compatible => none
    feed cfg [] [g ++ a ++ b, [], []] =
      ([.message { category := ca, variant := va, priority := pa, dst := da, src := src va, payload := xa },
        .message { category := cb, variant := vb, priority := pb, dst := db, src := src vb, payload := xb },
        .noMessage], [])

/-- 43_assembler.md R137 (b), 70_reset_and_hazards.md R180: when the first marker that is not rejected has an incomplete
candidate, PROCESS of the stream and every `PROCESS []` after it return `None` and keep the bytes from that marker on,
true frames behind it included. -/
def Obligations.IncompleteCandidateHoldsBackWhatFollows : Prop :=
  ∀ (cfg : Config) (stream : List Byte) (i n : Nat), stream.length ≤ cfg.cap → stream[i]? = some cfg.wire.sof →
    (∀ j, j < i → stream[j]? = some cfg.wire.sof → (judge cfg.wire stream j).isReject = true) →
    judge cfg.wire stream i = .incomplete →
    feed cfg [] (stream :: List.replicate n []) = (List.replicate (n + 1) .noMessage, stream.drop i)

/-- 43_assembler.md R126 (a), R132: bytes among which there is no marker are kept, all of them; a buffer full of them
refuses every further byte, drops nothing on `PROCESS []`, and is emptied by RESET. -/
def Obligations.MarkerFreeBytesAreKeptUntilReset : Prop :=
  ∀ (s : State) (newBytes : List Byte), MarkerFree s.cfg.wire (s.buf ++ newBytes) →
    (s.buf.length + newBytes.length ≤ s.cfg.cap →
      exec (.process newBytes) s = .next { s with buf := s.buf ++ newBytes, response := some .noMessage }) ∧
    (s.buf.length = s.cfg.cap →
      (newBytes ≠ [] → exec (.process newBytes) s = .next { s with response := some (.err .bufferFull) }) ∧
      exec (.process []) s = .next { s with response := some .noMessage } ∧
      exec .reset s = .next { s with buf := [], response := some .ok })

/-- 43_assembler.md R139: a candidate at the front of 65 bytes is judged, so the only full buffer on which `PROCESS []`
makes no progress holds no marker. -/
def Obligations.FullBufferWithAMarkerMakesProgress : Prop :=
  (∀ (w : Wire) (buf : List Byte), 65 ≤ buf.length → judge w buf 0 ≠ .incomplete) ∧
  (∀ s t : State, s.Inv → s.buf.length = s.cfg.cap → exec (.process []) s = .next t → t.buf = s.buf →
    MarkerFree s.cfg.wire s.buf)

/-- 43_assembler.md R129: PROCESS reads neither `LOCAL_ADDR` nor `CLASS_TABLE`: with other values there it does the same
to the buffer and returns the same result. -/
def Obligations.ProcessDoesNotReadAddressOrTable : Prop :=
  ∀ (s t : State) (newBytes : List Byte) (a : Addr) (c : ClassTable), exec (.process newBytes) s = .next t →
    exec (.process newBytes) { s with cfg := { s.cfg with localAddr := a, classTable := c } } =
      .next { t with cfg := { s.cfg with localAddr := a, classTable := c } }

/-! ### The frame rows of the opcode table (that a row is a reception of its bytes is the model's own, log entry 5) -/

/-- Every frame row and reserved-category row completes, and is the reception of its bytes as the instance lays them out:
marker, header byte, fields, trailer. Under the default wire constants these bytes are the row's encoding. -/
def Obligations.FrameRowsAreReceptionsOfTheirBytes : Prop :=
  (∀ (s : State) (pri : Priority) (rsv : Bool) (dst src : Addr) (len : Byte) (payload : List Byte) (k : BitVec 16),
    (∃ t, exec (.frameCommandStandard pri rsv dst src len payload k) s = .next t ∧
      Received s (standardArrival s.cfg.wire .command pri rsv dst src len payload k) t) ∧
    (∃ t, exec (.frameStatusStandard pri rsv dst src len payload k) s = .next t ∧
      Received s (standardArrival s.cfg.wire .status pri rsv dst src len payload k) t) ∧
    (∃ t, exec (.frameCooperationStandard pri rsv dst src len payload k) s = .next t ∧
      Received s (standardArrival s.cfg.wire .cooperation pri rsv dst src len payload k) t) ∧
    (∃ t, exec (.frameExtendedStandard pri rsv dst src len payload k) s = .next t ∧
      Received s (standardArrival s.cfg.wire .extended pri rsv dst src len payload k) t)) ∧
  (∀ (s : State) (pri : Priority) (rsv : Bool) (dst : Addr) (len : Byte) (payload : List Byte) (trl : Byte),
    (∃ t, exec (.frameCommandCompatible pri rsv dst len payload trl) s = .next t ∧
      Received s (compatibleArrival s.cfg.wire .command pri rsv dst len payload trl) t) ∧
    (∃ t, exec (.frameStatusCompatible pri rsv dst len payload trl) s = .next t ∧
      Received s (compatibleArrival s.cfg.wire .status pri rsv dst len payload trl) t) ∧
    (∃ t, exec (.frameCooperationCompatible pri rsv dst len payload trl) s = .next t ∧
      Received s (compatibleArrival s.cfg.wire .cooperation pri rsv dst len payload trl) t) ∧
    (∃ t, exec (.frameExtendedCompatible pri rsv dst len payload trl) s = .next t ∧
      Received s (compatibleArrival s.cfg.wire .extended pri rsv dst len payload trl) t)) ∧
  (∀ (s : State) (cc : BitVec 2) (ccc : BitVec 3) (var : Variant) (pri : Priority) (rsv : Bool),
    (∃ t, exec (.frameReservedCat4to7 cc var pri rsv) s = .next t ∧
      Received s (reservedArrival s.cfg.wire (0b01#2 ++ cc) var pri rsv) t) ∧
    (∃ t, exec (.frameReservedCat8to15 ccc var pri rsv) s = .next t ∧
      Received s (reservedArrival s.cfg.wire (0b1#1 ++ ccc) var pri rsv) t))

/-- Under the default wire constants the bytes a frame row is the reception of are the row's encoding: the marker, the
header byte of opcode_table.json, and the layout of 30_encoding.md R62 or R63. -/
def Obligations.FrameRowsUnderDefaultsAreTheirEncoding : Prop :=
  ∀ (s : State) (i : Instr), s.cfg.wire = defaultWire → isPure i = false → i ≠ .reset → i ≠ .reservedOp7 →
    (∀ newBytes, i ≠ .process newBytes) → exec i s = exec (.process (encode i)) s

/-- 43_assembler.md R123 for the frame rows with the default wire constants: a frame with the right length byte and the
right integrity field that arrives in an empty buffer is yielded, the reserved header bit either way (30_encoding.md
R73), and the buffer is empty after it. -/
def Obligations.RightFramesAreYielded : Prop :=
  ∀ (s : State) (pri : Priority) (rsv : Bool) (dst src : Addr) (payload : List Byte),
    s.cfg.wire = defaultWire → s.buf = [] → payload.length ≤ 56 → 9 + payload.length ≤ s.cfg.cap →
    let len : Byte := BitVec.ofNat 8 payload.length
    let hdr (cat var : Nat) : Byte := BitVec.ofNat 8 (cat * 16 + var * 8 + priorityRank pri * 2 + rsv.toNat)
    let k (cat : Nat) : BitVec 16 := crc 0x1021 0xFFFF
      ([hdr cat 0, dst.extractLsb' 8 8, dst.extractLsb' 0 8, src.extractLsb' 8 8, src.extractLsb' 0 8, len] ++ payload)
    let c (cat : Nat) : Byte := (crc (W := 4) 0x3 0xF
      ([hdr cat 1, dst.extractLsb' 8 8, dst.extractLsb' 0 8, len] ++ payload)).setWidth 8
    let yields (cat : Category) (var : Variant) (from? : Option Addr) : Host.Outcome State Fault Refusal :=
      .next { s with response := some (.message
        { category := cat, variant := var, priority := pri, dst := dst, src := from?, payload := payload }) }
    exec (.frameCommandStandard pri rsv dst src len payload (k 0)) s = yields .command .standard (some src) ∧
    exec (.frameStatusStandard pri rsv dst src len payload (k 1)) s = yields .status .standard (some src) ∧
    exec (.frameCooperationStandard pri rsv dst src len payload (k 2)) s = yields .cooperation .standard (some src) ∧
    exec (.frameExtendedStandard pri rsv dst src len payload (k 3)) s = yields .extended .standard (some src) ∧
    exec (.frameCommandCompatible pri rsv dst len payload (c 0)) s = yields .command .compatible none ∧
    exec (.frameStatusCompatible pri rsv dst len payload (c 1)) s = yields .status .compatible none ∧
    exec (.frameCooperationCompatible pri rsv dst len payload (c 2)) s = yields .cooperation .compatible none ∧
    exec (.frameExtendedCompatible pri rsv dst len payload (c 3)) s = yields .extended .compatible none

/-- 30_encoding.md R72, 43_assembler.md R125 with the default wire constants: a marker and a header of a reserved category
that arrive in an empty buffer yield nothing, and the scan resumes one byte past the marker: the header byte is kept. -/
def Obligations.ReservedCategoryRowsAreSkipped : Prop :=
  ∀ (s : State) (cc : BitVec 2) (ccc : BitVec 3) (var : Variant) (pri : Priority) (rsv : Bool),
    s.cfg.wire = defaultWire → s.buf = [] → 2 ≤ s.cfg.cap →
    let low : Nat := variantNumber var * 8 + priorityRank pri * 2 + rsv.toNat
    exec (.frameReservedCat4to7 cc var pri rsv) s =
      .next { s with buf := [BitVec.ofNat 8 (0x40 + cc.toNat * 16 + low)], response := some .noMessage } ∧
    exec (.frameReservedCat8to15 ccc var pri rsv) s =
      .next { s with buf := [BitVec.ofNat 8 (0x80 + ccc.toNat * 16 + low)], response := some .noMessage }

/-- 30_encoding.md R64, R65, R66, R78, R61 with the default wire constants: the header byte the encoder writes as a
number; the header bytes with a known category are exactly `0x00` to `0x3F`; the marker is none of them. -/
def Obligations.HeaderBytesOfTheDefaultPacking : Prop :=
  (∀ (cat : Category) (var : Variant) (pri : Priority),
    (headerByte defaultWire cat var pri).toNat = categoryNumber cat * 16 + variantNumber var * 8 + priorityRank pri * 2) ∧
  (∀ h : Byte, (catOf defaultWire (headerCat defaultWire.hdr h)).isSome = true ↔ h.toNat < 0x40) ∧
  catOf defaultWire (headerCat defaultWire.hdr defaultWire.sof) = none

/-- 30_encoding.md R66: the priority codes, their order, and that every 2-bit value is a priority. -/
def Obligations.PriorityCodesAreOrderedAndComplete : Prop :=
  priCode defaultWire .low = 0 ∧ priCode defaultWire .normal = 1 ∧ priCode defaultWire .high = 2 ∧
  priCode defaultWire .critical = 3 ∧
  (∀ p q : Priority, priorityRank p < priorityRank q ↔ (priCode defaultWire p).toNat < (priCode defaultWire q).toNat) ∧
  (∀ c : BitVec 2, priCode defaultWire (priOf defaultWire c) = c)

/-! ### Decoding (the byte form of the operations is the model's own, log entry 1) -/

/-- A few words written out: operation codes of 30_encoding.md R71, header bytes of opcode_table.json. -/
def Obligations.WordsOfTheOpcodeTableDecode : Prop :=
  decodeTableWord 8 0x00 = some .reset ∧ decodeTableWord 8 0x02 = some (.crc16 []) ∧
  decodeTableWord 8 0x03 = some (.classify .key) ∧ decodeTableWord 8 0x06 = some (.process []) ∧
  decodeTableWord 8 0x07 = some .reservedOp7 ∧
  decodeTableWord 8 0x14 = some (.frameStatusStandard .high false 0 0 0 [] 0) ∧
  decodeTableWord 8 0x3F = some (.frameExtendedCompatible .critical true 0 0 [] 0) ∧
  decodeTableWord 8 0x58 = some (.frameReservedCat4to7 1 .compatible .low false) ∧
  decodeTableWord 8 0xA5 = some (.frameReservedCat8to15 2 .standard .high true)

/-- For every well-formed instruction, decoding its encoding gives it back with every operand, and the bytes after it. -/
def Obligations.DecodeOfEncodeIsTheInstruction : Prop :=
  ∀ (i : Instr) (rest : List Byte), i.wellFormed = true → decode (encode i ++ rest) = .ok (i, rest)

/-- What decodes is well-formed and has one byte form, its encoding: no bit of an instruction's bytes is ignored. -/
def Obligations.DecodedBytesAreTheEncoding : Prop :=
  ∀ (bytes : List Byte) (i : Instr) (rest : List Byte), decode bytes = .ok (i, rest) →
    i.wellFormed = true ∧ bytes = encode i ++ rest

/-! ### The machine -/

/-- A step runs the operation its request bytes decode to, with those bytes taken off; it refuses bytes that are no
instruction (the model's own, log entry 10). -/
def Obligations.StepRunsTheDecodedOperation : Prop :=
  ∀ s : State,
    (∀ i rest, decode s.request = .ok (i, rest) → step s = exec i { s with request := rest }) ∧
    (∀ e, s.request ≠ [] → decode s.request = .error e → step s = .refused (.malformedRequest e))

/-- 60_exceptions.md R164, 70_reset_and_hazards.md R172: with no operation issued the block does nothing. -/
def Obligations.IdleStepChangesNothing : Prop :=
  ∀ s : State, s.request = [] → step s = .next s

/-- 20_memory.md R46: issued operations run one at a time in the order issued. -/
def Obligations.IssuedOperationsRunInOrder : Prop :=
  ∀ (s t : State) (i j : Instr), i.wellFormed = true → j.wellFormed = true → s.request = [] →
    exec i (s.issue j) = .next t → step ((s.issue i).issue j) = .next t ∧ step t = exec j { t with request := [] }

/-- 60_exceptions.md R158, R131: every operation is total: each instruction but the reserved code has a next state from
every state, with a result, the same configuration and the same operations still to run. -/
def Obligations.EveryOperationIsTotal : Prop :=
  ∀ (i : Instr) (s : State), i ≠ .reservedOp7 →
    ∃ t r, exec i s = .next t ∧ t.response = some r ∧ t.cfg = s.cfg ∧ t.request = s.request

/-- 30_encoding.md R74 (c): operation code 7 is reserved; the model has no step for it. -/
def Obligations.ReservedOperationCodeIsRefused : Prop :=
  ∀ s : State, exec .reservedOp7 s = .refused .reservedOperation

/-- 10_state.md R25: nothing of a result is stored: no operation reads the result of an earlier one. -/
def Obligations.NoOperationReadsAnEarlierResult : Prop :=
  ∀ (i : Instr) (s : State) (r : Option Result), exec i { s with response := r } = exec i s

/-- 10_state.md R20, R29: the configuration is constant: no step writes any part of it. -/
def Obligations.ConfigurationIsConstant : Prop :=
  ∀ s t : State, step s = .next t → t.cfg = s.cfg

/-- 10_state.md R21, 43_assembler.md R138: every step keeps the buffer within a legal capacity. -/
def Obligations.StepKeepsTheBufferWithinCapacity : Prop :=
  ∀ s t : State, s.Inv → step s = .next t → t.Inv

/-- 10_state.md R21, R32: the invariant holds at reset and of every constructed instance. -/
def Obligations.InvariantHoldsAfterConstruction : Prop :=
  State.reset.Inv ∧ ∀ (cfg : Config) (t : State), construct cfg = .next t → t.Inv
end

