-- ==== Sys2Proof/Laws/Decode.lean ====
section
/-!
SUPPORT. The pieces of an instruction's bytes: 16-bit values, the codes of the enumerated types, the table's header
byte, and byte-sequence operands.
-/

namespace Sys2Proof

@[simp] theorem joinBytes_hi_lo (v : BitVec 16) : joinBytes (hiByte v) (loByte v) = v := by
  apply BitVec.eq_of_getLsbD_eq
  intro i hi
  simp only [joinBytes, hiByte, loByte, BitVec.getLsbD_append, BitVec.getLsbD_extractLsb']
  by_cases h : i < 8
  · simp [h]
  · have h8 : i - 8 < 8 := by omega
    simp [h, h8, show 8 + (i - 8) = i by omega]

@[simp] theorem hiByte_joinBytes (hi lo : Byte) : hiByte (joinBytes hi lo) = hi := by
  apply BitVec.eq_of_getLsbD_eq
  intro i h
  simp only [joinBytes, hiByte, BitVec.getLsbD_append, BitVec.getLsbD_extractLsb']
  simp [h]

@[simp] theorem loByte_joinBytes (hi lo : Byte) : loByte (joinBytes hi lo) = lo := by
  apply BitVec.eq_of_getLsbD_eq
  intro i h
  simp only [joinBytes, loByte, BitVec.getLsbD_append, BitVec.getLsbD_extractLsb']
  simp [h]

@[simp] theorem categoryOfBits_bits (c : Category) : categoryOfBits (categoryBits c) = c := by
  cases c <;> rfl

theorem categoryBits_ofBits : ∀ c : BitVec 2, categoryBits (categoryOfBits c) = c := by decide

@[simp] theorem priorityOfBits_bits (p : Priority) : priorityOfBits (priorityBits p) = p := by
  cases p <;> rfl

theorem priorityBits_ofBits : ∀ c : BitVec 2, priorityBits (priorityOfBits c) = c := by decide

@[simp] theorem variantOfBit_bit (v : Variant) : variantOfBit (variantBit v) = v := by
  cases v <;> rfl

@[simp] theorem variantBit_ofBit (b : Bool) : variantBit (variantOfBit b) = b := by
  cases b <;> rfl

@[simp] theorem decodeCategory_byte (c : Category) : decodeCategory (categoryByte c) = .ok c := by
  cases c <;> rfl

@[simp] theorem decodeVariant_byte (v : Variant) : decodeVariant (variantByte v) = .ok v := by
  cases v <;> rfl

@[simp] theorem decodePriority_byte (p : Priority) : decodePriority (priorityByte p) = .ok p := by
  cases p <;> rfl

@[simp] theorem decodeKind_byte (k : Kind) : decodeKind (kindByte k) = .ok k := by
  cases k <;> rfl

/-- A byte-sequence operand is read back with the bytes after it. -/
@[simp] theorem decodeSeq_encodeSeq (bytes rest : List Byte) : decodeSeq (encodeSeq bytes ++ rest) = .ok (bytes, rest) := by
  induction bytes with
  | nil => cases rest <;> simp [encodeSeq, decodeSeq]
  | cons b bs ih => simp [encodeSeq, decodeSeq, ih]

/-- What a byte-sequence operand decodes to has that operand as its one form. -/
theorem decodeSeq_eq_ok {bytes seq rest : List Byte} (h : decodeSeq bytes = .ok (seq, rest)) :
    bytes = encodeSeq seq ++ rest := by
  fun_induction decodeSeq bytes generalizing seq rest with
  | case1 => cases h
  | case2 => cases h; rfl
  | case3 => cases h
  | case4 => cases h
  | case5 => cases h; rfl
  | case6 b tail bs rest' hseq _ ih =>
    cases h
    simp [encodeSeq, ih hseq]
  | case7 => cases h
  | case8 => cases h

/-- The payload a well-formed frame carries is what `takeBytes` takes. -/
theorem takeBytes_append {n : Nat} {payload rest : List Byte} (h : payload.length = n) :
    takeBytes n (payload ++ rest) = some (payload, rest) := by
  subst h
  simp [takeBytes]

theorem takeBytes_eq_some {n : Nat} {bytes a b : List Byte} (h : takeBytes n bytes = some (a, b)) :
    bytes = a ++ b ∧ a.length = n := by
  unfold takeBytes at h
  split at h
  · cases h; simp [*]
  · cases h

end Sys2Proof
end

