-- ==== Sys2Proof/Laws/State.lean ====
section
/-!
SUPPORT. One lemma per field per update of the state, so that no proof unfolds a record update.
-/

namespace Sys2Proof.Machine

@[simp] theorem State.answer_buf (s : State) (r : Result) : (s.answer r).buf = s.buf := rfl
@[simp] theorem State.answer_cfg (s : State) (r : Result) : (s.answer r).cfg = s.cfg := rfl
@[simp] theorem State.answer_request (s : State) (r : Result) : (s.answer r).request = s.request := rfl
@[simp] theorem State.answer_response (s : State) (r : Result) : (s.answer r).response = some r := rfl

@[simp] theorem State.setBuf_buf (s : State) (b : List Byte) : (s.setBuf b).buf = b := rfl
@[simp] theorem State.setBuf_cfg (s : State) (b : List Byte) : (s.setBuf b).cfg = s.cfg := rfl
@[simp] theorem State.setBuf_request (s : State) (b : List Byte) : (s.setBuf b).request = s.request := rfl
@[simp] theorem State.setBuf_response (s : State) (b : List Byte) : (s.setBuf b).response = s.response := rfl

@[simp] theorem State.raise_buf (s : State) (e : Error) : (s.raise e).buf = s.buf := rfl
@[simp] theorem State.raise_cfg (s : State) (e : Error) : (s.raise e).cfg = s.cfg := rfl
@[simp] theorem State.raise_request (s : State) (e : Error) : (s.raise e).request = s.request := rfl
@[simp] theorem State.raise_response (s : State) (e : Error) : (s.raise e).response = some (.err e) := rfl

@[simp] theorem State.issue_buf (s : State) (i : Instr) : (s.issue i).buf = s.buf := rfl
@[simp] theorem State.issue_cfg (s : State) (i : Instr) : (s.issue i).cfg = s.cfg := rfl
@[simp] theorem State.issue_request (s : State) (i : Instr) : (s.issue i).request = s.request ++ encode i := rfl
@[simp] theorem State.issue_response (s : State) (i : Instr) : (s.issue i).response = s.response := rfl

@[simp] theorem State.receive_buf (s : State) (bytes : List Byte) :
    (s.receive bytes).buf = (assemble s.cfg s.buf bytes).2 := rfl
@[simp] theorem State.receive_cfg (s : State) (bytes : List Byte) : (s.receive bytes).cfg = s.cfg := rfl
@[simp] theorem State.receive_request (s : State) (bytes : List Byte) : (s.receive bytes).request = s.request := rfl
@[simp] theorem State.receive_response (s : State) (bytes : List Byte) :
    (s.receive bytes).response = some (assemble s.cfg s.buf bytes).1 := rfl

end Sys2Proof.Machine
end

