-- ==== Sys2Proof/Laws/Machine.lean ====
section
/-!
SUPPORT. What each shared operation can do, said once: the buffer primitives and the form they keep, the verdict of a
candidate, one scan, one reception, the end of an encoding, fetching, and every meaning that answers a next state.
-/

namespace Sys2Proof.Machine

/-! ### The buffer and its form -/

theorem memRead_eq_some {buf bytes : List Byte} {i n : Nat} (h : memRead buf i n = some bytes) :
    i + n ≤ buf.length ∧ bytes = (buf.drop i).take n ∧ bytes.length = n := by
  unfold memRead at h
  split at h
  · cases h
    refine ⟨‹_›, rfl, ?_⟩
    simp only [List.length_take, List.length_drop]
    omega
  · cases h

@[simp] theorem length_memAppend (buf bytes : List Byte) : (memAppend buf bytes).length = buf.length + bytes.length := by
  simp [memAppend]

@[simp] theorem length_memDrop (buf : List Byte) (n : Nat) : (memDrop buf n).length = buf.length - n := by
  simp [memDrop]

theorem memAppend_wf {cap : Nat} {buf bytes : List Byte} (h : buf.length + bytes.length ≤ cap) :
    Memory.wf cap (memAppend buf bytes) := by
  simpa [Memory.wf] using h

theorem memDrop_wf {cap : Nat} {buf : List Byte} (h : Memory.wf cap buf) (n : Nat) : Memory.wf cap (memDrop buf n) := by
  simp only [Memory.wf, length_memDrop] at *
  omega

theorem reset_wf : Memory.wf State.reset.cfg.cap State.reset.buf := by decide

/-! ### The assembler -/

/-- An accepted candidate is there whole, and has the length of a frame. -/
theorem judge_accept_bounds {w : Wire} {buf : List Byte} {p total : Nat} {d : Decoded}
    (h : judge w buf p = .accept d total) : 6 ≤ total ∧ total ≤ maxWire ∧ p + total ≤ buf.length := by
  unfold judge at h
  simp only at h
  split at h
  · cases h
  split at h
  · cases h
  split at h
  · cases h
  split at h
  · cases h
  split at h
  · cases h
  split at h
  · cases h
    cases hv : varOf w (headerVar w.hdr (byteAt buf (p + 1))) <;>
      simp_all [headLength, trailerLength, maxPayload, maxWire] <;> omega
  · cases h

/-- One pass of the scan loop (43_assembler.md R120). -/
theorem scan_succ_cases (w : Wire) (buf : List Byte) (fuel pos : Nat) :
    (findMarker w buf pos = none ∧ scan w buf (fuel + 1) pos = (none, memDrop buf pos)) ∨
    ∃ i, findMarker w buf pos = some i ∧
      ((judge w buf i = .incomplete ∧ scan w buf (fuel + 1) pos = (none, memDrop buf i)) ∨
      (∃ reason, judge w buf i = .reject reason ∧ scan w buf (fuel + 1) pos = scan w buf fuel (i + 1)) ∨
      (∃ d total, judge w buf i = .accept d total ∧ scan w buf (fuel + 1) pos = (some d, memDrop buf (i + total)))) := by
  rw [scan]
  cases hf : findMarker w buf pos with
  | none => exact .inl ⟨rfl, rfl⟩
  | some i =>
    refine .inr ⟨i, rfl, ?_⟩
    cases hj : judge w buf i with
    | incomplete => exact .inl ⟨rfl, by simp only [hj]⟩
    | reject reason => exact .inr (.inl ⟨reason, rfl, by simp only [hj]⟩)
    | accept d total => exact .inr (.inr ⟨d, total, rfl, by simp only [hj]⟩)

/-- A scan keeps a suffix of the buffer (43_assembler.md R126). -/
theorem scan_keeps_suffix (w : Wire) (buf : List Byte) (fuel pos : Nat) : ∃ n, (scan w buf fuel pos).2 = memDrop buf n := by
  induction fuel generalizing pos with
  | zero => exact ⟨pos, rfl⟩
  | succ fuel ih =>
    obtain ⟨-, h⟩ | ⟨i, -, ⟨-, h⟩ | ⟨_, -, h⟩ | ⟨_, total, -, h⟩⟩ := scan_succ_cases w buf fuel pos
    · exact ⟨pos, by rw [h]⟩
    · exact ⟨i, by rw [h]⟩
    · rw [h]; exact ih (i + 1)
    · exact ⟨i + total, by rw [h]⟩

/-- A reception refuses the bytes whole or scans the buffer with all of them (43_assembler.md R120, R121). -/
theorem assemble_cases (cfg : Config) (buf bytes : List Byte) :
    (cfg.cap < buf.length + bytes.length ∧ assemble cfg buf bytes = (.err .bufferFull, buf)) ∨
    (buf.length + bytes.length ≤ cfg.cap ∧
      assemble cfg buf bytes =
        (scanResult (scanBuffer cfg.wire (buf ++ bytes)).1, (scanBuffer cfg.wire (buf ++ bytes)).2)) := by
  unfold assemble
  split
  · exact .inl ⟨by omega, rfl⟩
  · exact .inr ⟨by omega, rfl⟩

theorem assemble_wf {cfg : Config} {buf : List Byte} (h : Memory.wf cfg.cap buf) (bytes : List Byte) :
    Memory.wf cfg.cap (assemble cfg buf bytes).2 := by
  obtain ⟨-, ha⟩ | ⟨hfit, ha⟩ := assemble_cases cfg buf bytes
  · rw [ha]; exact h
  · rw [ha]
    obtain ⟨n, hn⟩ := scan_keeps_suffix cfg.wire (buf ++ bytes) ((buf ++ bytes).length + 1) 0
    simp only [scanBuffer, hn]
    exact memDrop_wf (by simpa [Memory.wf] using hfit) n

/-! ### The encoder -/

/-- An encoding is the frame of a payload that fits, or the one error. -/
theorem encodeFrame_cases (cfg : Config) (cat : Category) (var : Variant) (pri : Priority) (dst : Addr)
    (payload : List Byte) :
    (maxPayload < payload.length ∧ encodeFrame cfg cat var pri dst payload = .error .payloadTooLarge) ∨
    (payload.length ≤ maxPayload ∧
      encodeFrame cfg cat var pri dst payload = .ok (frameBytes cfg cat var pri dst payload)) := by
  unfold encodeFrame
  split
  · exact .inl ⟨by omega, rfl⟩
  · exact .inr ⟨by omega, rfl⟩

/-- The end of an encoding is a result and nothing else. -/
theorem answerEncoding_eq (s : State) (e : Except Error (List Byte)) : ∃ r, answerEncoding s e = s.answer r := by
  cases e with
  | ok bytes => exact ⟨_, rfl⟩
  | error err => exact ⟨_, rfl⟩

/-! ### Fetching and running -/

theorem fetch_cases (s : State) :
    (s.request = [] ∧ fetch s = none) ∨
    (∃ i rest, decode s.request = .ok (i, rest) ∧ fetch s = some (.ok (i, { s with request := rest }))) ∨
    (∃ e, s.request ≠ [] ∧ decode s.request = .error e ∧ fetch s = some (.error e)) := by
  cases hr : s.request with
  | nil => exact .inl ⟨rfl, by simp [fetch, hr]⟩
  | cons b bs =>
    cases hd : decode (b :: bs) with
    | ok p => exact .inr (.inl ⟨p.1, p.2, rfl, by simp [fetch, hr, hd]⟩)
    | error e => exact .inr (.inr ⟨e, by simp, rfl, by simp [fetch, hr, hd]⟩)

/-- Every meaning that answers a next state hands back a result, or also empties the buffer, or receives bytes. -/
theorem exec_cases {i : Instr} {s t : State} (h : exec i s = .next t) :
    (∃ r, t = s.answer r) ∨ t = (s.setBuf []).answer .ok ∨ ∃ bytes, t = s.receive bytes := by
  cases i with
  | reset => cases h; exact .inr (.inl rfl)
  | crc4 bytes => cases h; exact .inl ⟨_, rfl⟩
  | crc16 bytes => cases h; exact .inl ⟨_, rfl⟩
  | classify kind => cases h; exact .inl ⟨_, rfl⟩
  | encode cat var pri dst payload => cases h; exact .inl (answerEncoding_eq _ _)
  | encodei cat var kind dst payload => cases h; exact .inl (answerEncoding_eq _ _)
  | process bytes => cases h; exact .inr (.inr ⟨_, rfl⟩)
  | reservedOp7 => cases h
  | frameCommandStandard => cases h; exact .inr (.inr ⟨_, rfl⟩)
  | frameCommandCompatible => cases h; exact .inr (.inr ⟨_, rfl⟩)
  | frameStatusStandard => cases h; exact .inr (.inr ⟨_, rfl⟩)
  | frameStatusCompatible => cases h; exact .inr (.inr ⟨_, rfl⟩)
  | frameCooperationStandard => cases h; exact .inr (.inr ⟨_, rfl⟩)
  | frameCooperationCompatible => cases h; exact .inr (.inr ⟨_, rfl⟩)
  | frameExtendedStandard => cases h; exact .inr (.inr ⟨_, rfl⟩)
  | frameExtendedCompatible => cases h; exact .inr (.inr ⟨_, rfl⟩)
  | frameReservedCat4to7 => cases h; exact .inr (.inr ⟨_, rfl⟩)
  | frameReservedCat8to15 => cases h; exact .inr (.inr ⟨_, rfl⟩)

/-- One step changes nothing, or is the running of one instruction (a next state; refusals are not steps). -/
theorem step_cases {s t : State} (h : step s = .next t) :
    (s.request = [] ∧ t = s) ∨
    ∃ i rest, decode s.request = .ok (i, rest) ∧ exec i { s with request := rest } = .next t := by
  unfold step at h
  obtain ⟨hr, hf⟩ | ⟨i, rest, hd, hf⟩ | ⟨e, -, -, hf⟩ := fetch_cases s
  · rw [hf] at h; cases h; exact .inl ⟨hr, rfl⟩
  · rw [hf] at h; exact .inr ⟨i, rest, hd, h⟩
  · rw [hf] at h; cases h

end Sys2Proof.Machine
end

