-- ==== Sys2Proof/Laws/Operands.lean ====
section
/-!
SUPPORT. The operand forms of frames: what is written is read back, under wire constants that are well-formed.
-/

namespace Sys2Proof.Machine

@[simp] theorem length_serial16 (w : Wire) (v : BitVec 16) : (serial16 w v).length = 2 := by
  unfold serial16
  split <;> rfl

/-- The two bytes of a 16-bit field, in the order of the instance. -/
theorem serial16_eq (w : Wire) (v : BitVec 16) :
    ∃ first second, serial16 w v = [first, second] ∧ read16 w first second = v := by
  unfold serial16 read16
  split <;> exact ⟨_, _, rfl, by simp⟩

theorem serial16_read16 (w : Wire) (first second : Byte) : serial16 w (read16 w first second) = [first, second] := by
  unfold serial16 read16
  split <;> simp

/-- The conditions `wireWf` checks, one by one. -/
theorem wireWf_iff (w : Wire) : wireWf w = true ↔
    packingWf w.hdr = true ∧
    w.catCommand ≠ w.catStatus ∧ w.catCommand ≠ w.catCooperation ∧ w.catCommand ≠ w.catExtended ∧
    w.catStatus ≠ w.catCooperation ∧ w.catStatus ≠ w.catExtended ∧ w.catCooperation ≠ w.catExtended ∧
    w.priLow ≠ w.priNormal ∧ w.priLow ≠ w.priHigh ∧ w.priLow ≠ w.priCritical ∧
    w.priNormal ≠ w.priHigh ∧ w.priNormal ≠ w.priCritical ∧ w.priHigh ≠ w.priCritical ∧
    w.varStandard ≠ w.varCompatible := by
  simp [wireWf, and_assoc]

theorem catOf_catCode {w : Wire} (h : wireWf w = true) (c : Category) : catOf w (catCode w c) = some c := by
  obtain ⟨_, h1, h2, h3, h4, h5, h6, _⟩ := (wireWf_iff w).mp h
  cases c <;> simp [catOf, catCode, Ne.symm h1, Ne.symm h2, Ne.symm h3, Ne.symm h4, Ne.symm h5, Ne.symm h6]

/-- A known category code is the code of its category. -/
theorem catCode_of_catOf {w : Wire} {c : BitVec 4} {cat : Category} (h : catOf w c = some cat) : catCode w cat = c := by
  unfold catOf at h
  split at h
  · cases h; simp [catCode, *]
  split at h
  · cases h; simp [catCode, *]
  split at h
  · cases h; simp [catCode, *]
  split at h
  · cases h; simp [catCode, *]
  · cases h

theorem priOf_priCode {w : Wire} (h : wireWf w = true) (p : Priority) : priOf w (priCode w p) = p := by
  obtain ⟨_, _, _, _, _, _, _, h1, h2, h3, h4, h5, h6, _⟩ := (wireWf_iff w).mp h
  cases p <;> simp [priOf, priCode, Ne.symm h1, Ne.symm h2, Ne.symm h3, Ne.symm h4, Ne.symm h5, Ne.symm h6]

/-- Four different codes of two bits are all of them. -/
theorem priCode_priOf {w : Wire} (h : wireWf w = true) (c : BitVec 2) : priCode w (priOf w c) = c := by
  obtain ⟨_, _, _, _, _, _, _, h1, h2, h3, h4, h5, h6, _⟩ := (wireWf_iff w).mp h
  unfold priOf
  split
  · simp [priCode, *]
  split
  · simp [priCode, *]
  split
  · simp [priCode, *]
  · rename_i n1 n2 n3
    simp only [priCode]
    bv_omega

theorem varOf_varCode {w : Wire} (h : wireWf w = true) (v : Variant) : varOf w (varCode w v) = v := by
  have hne := (wireWf_iff w).mp h |>.2.2.2.2.2.2.2.2.2.2.2.2.2
  cases v <;> simp [varOf, varCode, Ne.symm hne]

/-- Two different codes of one bit are both of them. -/
theorem varCode_varOf {w : Wire} (h : wireWf w = true) (c : BitVec 1) : varCode w (varOf w c) = c := by
  have hne := (wireWf_iff w).mp h |>.2.2.2.2.2.2.2.2.2.2.2.2.2
  unfold varOf
  split
  · simp [varCode, *]
  · rename_i n
    have key : ∀ a b x : BitVec 1, a ≠ b → x ≠ a → b = x := by decide
    exact key _ _ _ hne n

/-- The places a well-formed packing can have. -/
theorem packingWf_bounds {p : HdrPacking} (h : packingWf p = true) :
    p.catLo < 5 ∧ p.varBit < 8 ∧ p.priLo < 7 ∧ p.rsvBit < 8 := by
  simp [packingWf] at h
  omega

/-- A header byte holds its four fields and nothing else: checked for each of the places its fields can have. -/
theorem header_fields_all :
    ∀ (a : Fin 5) (b : Fin 8) (c : Fin 7) (d : Fin 8), packingWf ⟨a, b, c, d⟩ = true →
      (∀ (cat : BitVec 4) (var : BitVec 1) (pri : BitVec 2) (rsv : Bool),
        headerCat ⟨a, b, c, d⟩ (packHeader ⟨a, b, c, d⟩ cat var pri rsv) = cat ∧
        headerVar ⟨a, b, c, d⟩ (packHeader ⟨a, b, c, d⟩ cat var pri rsv) = var ∧
        headerPri ⟨a, b, c, d⟩ (packHeader ⟨a, b, c, d⟩ cat var pri rsv) = pri) ∧
      (∀ h : Byte, packHeader ⟨a, b, c, d⟩ (headerCat ⟨a, b, c, d⟩ h) (headerVar ⟨a, b, c, d⟩ h) (headerPri ⟨a, b, c, d⟩ h)
        (h.getLsbD d) = h) := by
  decide +kernel

theorem header_fields {p : HdrPacking} (wf : packingWf p = true) (cat : BitVec 4) (var : BitVec 1) (pri : BitVec 2)
    (rsv : Bool) :
    headerCat p (packHeader p cat var pri rsv) = cat ∧ headerVar p (packHeader p cat var pri rsv) = var ∧
      headerPri p (packHeader p cat var pri rsv) = pri :=
  have b := packingWf_bounds wf
  (header_fields_all ⟨p.catLo, b.1⟩ ⟨p.varBit, b.2.1⟩ ⟨p.priLo, b.2.2.1⟩ ⟨p.rsvBit, b.2.2.2⟩ wf).1 cat var pri rsv

/-- A header byte is the packing of its fields. -/
theorem packHeader_fields {p : HdrPacking} (wf : packingWf p = true) (h : Byte) :
    packHeader p (headerCat p h) (headerVar p h) (headerPri p h) (h.getLsbD p.rsvBit) = h :=
  have b := packingWf_bounds wf
  (header_fields_all ⟨p.catLo, b.1⟩ ⟨p.varBit, b.2.1⟩ ⟨p.priLo, b.2.2.1⟩ ⟨p.rsvBit, b.2.2.2⟩ wf).2 h

end Sys2Proof.Machine
end

