-- ==== Sys2Proof/Laws/PerInstr.lean ====
section
/-!
SUPPORT. One law per instruction, about the instruction as syntax: its encoding carries the pattern of its row of
opcode_table.json, in the selector byte for a CMD row and in the header byte after the marker for an HDR row.
-/

namespace Sys2Proof.Laws.TableRow

/-- A row of opcode_table.json, as the table writes it. -/
structure Row where
  header : Bool
  pattern : Byte
  mask : Byte
deriving DecidableEq, Repr

/-- The row of an instruction. -/
def row : Instr → Row
  | .reset => ⟨false, 0x0, 0x7⟩
  | .crc4 _ => ⟨false, 0x1, 0x7⟩
  | .crc16 _ => ⟨false, 0x2, 0x7⟩
  | .classify _ => ⟨false, 0x3, 0x7⟩
  | .encode _ _ _ _ _ => ⟨false, 0x4, 0x7⟩
  | .encodei _ _ _ _ _ => ⟨false, 0x5, 0x7⟩
  | .process _ => ⟨false, 0x6, 0x7⟩
  | .reservedOp7 => ⟨false, 0x7, 0x7⟩
  | .frameCommandStandard _ _ _ _ _ _ _ => ⟨true, 0x00, 0xF8⟩
  | .frameCommandCompatible _ _ _ _ _ _ => ⟨true, 0x08, 0xF8⟩
  | .frameStatusStandard _ _ _ _ _ _ _ => ⟨true, 0x10, 0xF8⟩
  | .frameStatusCompatible _ _ _ _ _ _ => ⟨true, 0x18, 0xF8⟩
  | .frameCooperationStandard _ _ _ _ _ _ _ => ⟨true, 0x20, 0xF8⟩
  | .frameCooperationCompatible _ _ _ _ _ _ => ⟨true, 0x28, 0xF8⟩
  | .frameExtendedStandard _ _ _ _ _ _ _ => ⟨true, 0x30, 0xF8⟩
  | .frameExtendedCompatible _ _ _ _ _ _ => ⟨true, 0x38, 0xF8⟩
  | .frameReservedCat4to7 _ _ _ _ => ⟨true, 0x40, 0xC0⟩
  | .frameReservedCat8to15 _ _ _ _ => ⟨true, 0x80, 0x80⟩

/-- A byte string begins with a byte of the row, after the marker for a header row. -/
def Row.begins (r : Row) : List Byte → Bool
  | [] => false
  | b :: rest =>
    if r.header then
      match rest with
      | [] => false
      | h :: _ => b == 0xA5 && h &&& r.mask == r.pattern
    else b.toNat < 8 && b &&& r.mask == r.pattern

/-- The encoding of an instruction begins with a byte of its row. -/
def Statement (i : Instr) : Prop := (row i).begins (encode i) = true

/-- The header of a row with a known category: the category, the variant and nothing else are fixed by the row. -/
theorem header_of_row (c : Category) (v : Variant) (pri : Priority) (rsv : Bool) :
    tableHeader ((categoryBits c).setWidth 4) v pri rsv &&& 0xF8 =
      tableHeader ((categoryBits c).setWidth 4) v .low false := by
  cases c <;> cases v <;> cases pri <;> cases rsv <;> rfl

theorem begins_standard (c : Category) (pri : Priority) (rsv : Bool) (dst src : Addr) (len : Byte) (payload : List Byte)
    (crc : BitVec 16) :
    (Row.mk true (tableHeader ((categoryBits c).setWidth 4) .standard .low false) 0xF8).begins
      (encodeStandard c pri rsv dst src len payload crc) = true := by
  simpa [Row.begins, encodeStandard] using header_of_row c .standard pri rsv

theorem begins_compatible (c : Category) (pri : Priority) (rsv : Bool) (dst : Addr) (len : Byte) (payload : List Byte)
    (trl : Byte) :
    (Row.mk true (tableHeader ((categoryBits c).setWidth 4) .compatible .low false) 0xF8).begins
      (encodeCompatible c pri rsv dst len payload trl) = true := by
  simpa [Row.begins, encodeCompatible] using header_of_row c .compatible pri rsv

theorem reset : Statement .reset := rfl
theorem crc4 (bytes : List Byte) : Statement (.crc4 bytes) := by
  simp [Statement, row, Row.begins, Sys2Proof.encode]
theorem crc16 (bytes : List Byte) : Statement (.crc16 bytes) := by
  simp [Statement, row, Row.begins, Sys2Proof.encode]
theorem classify (kind : Kind) : Statement (.classify kind) := by
  simp [Statement, row, Row.begins, Sys2Proof.encode]
theorem encode (cat : Category) (var : Variant) (pri : Priority) (dst : Addr) (payload : List Byte) :
    Statement (.encode cat var pri dst payload) := by
  simp [Statement, row, Row.begins, Sys2Proof.encode]
theorem encodei (cat : Category) (var : Variant) (kind : Kind) (dst : Addr) (payload : List Byte) :
    Statement (.encodei cat var kind dst payload) := by
  simp [Statement, row, Row.begins, Sys2Proof.encode]
theorem process (newBytes : List Byte) : Statement (.process newBytes) := by
  simp [Statement, row, Row.begins, Sys2Proof.encode]
theorem reservedOp7 : Statement .reservedOp7 := rfl
theorem frameCommandStandard (pri : Priority) (rsv : Bool) (dst src : Addr) (len : Byte) (payload : List Byte)
    (crc : BitVec 16) : Statement (.frameCommandStandard pri rsv dst src len payload crc) :=
  begins_standard .command pri rsv dst src len payload crc
theorem frameCommandCompatible (pri : Priority) (rsv : Bool) (dst : Addr) (len : Byte) (payload : List Byte) (trl : Byte) :
    Statement (.frameCommandCompatible pri rsv dst len payload trl) :=
  begins_compatible .command pri rsv dst len payload trl
theorem frameStatusStandard (pri : Priority) (rsv : Bool) (dst src : Addr) (len : Byte) (payload : List Byte)
    (crc : BitVec 16) : Statement (.frameStatusStandard pri rsv dst src len payload crc) :=
  begins_standard .status pri rsv dst src len payload crc
theorem frameStatusCompatible (pri : Priority) (rsv : Bool) (dst : Addr) (len : Byte) (payload : List Byte) (trl : Byte) :
    Statement (.frameStatusCompatible pri rsv dst len payload trl) :=
  begins_compatible .status pri rsv dst len payload trl
theorem frameCooperationStandard (pri : Priority) (rsv : Bool) (dst src : Addr) (len : Byte) (payload : List Byte)
    (crc : BitVec 16) : Statement (.frameCooperationStandard pri rsv dst src len payload crc) :=
  begins_standard .cooperation pri rsv dst src len payload crc
theorem frameCooperationCompatible (pri : Priority) (rsv : Bool) (dst : Addr) (len : Byte) (payload : List Byte)
    (trl : Byte) : Statement (.frameCooperationCompatible pri rsv dst len payload trl) :=
  begins_compatible .cooperation pri rsv dst len payload trl
theorem frameExtendedStandard (pri : Priority) (rsv : Bool) (dst src : Addr) (len : Byte) (payload : List Byte)
    (crc : BitVec 16) : Statement (.frameExtendedStandard pri rsv dst src len payload crc) :=
  begins_standard .extended pri rsv dst src len payload crc
theorem frameExtendedCompatible (pri : Priority) (rsv : Bool) (dst : Addr) (len : Byte) (payload : List Byte) (trl : Byte) :
    Statement (.frameExtendedCompatible pri rsv dst len payload trl) :=
  begins_compatible .extended pri rsv dst len payload trl
theorem frameReservedCat4to7 (cc : BitVec 2) (var : Variant) (pri : Priority) (rsv : Bool) :
    Statement (.frameReservedCat4to7 cc var pri rsv) := by
  unfold Statement
  revert cc
  cases var <;> cases pri <;> cases rsv <;> decide
theorem frameReservedCat8to15 (ccc : BitVec 3) (var : Variant) (pri : Priority) (rsv : Bool) :
    Statement (.frameReservedCat8to15 ccc var pri rsv) := by
  unfold Statement
  revert ccc
  cases var <;> cases pri <;> cases rsv <;> decide

end Sys2Proof.Laws.TableRow
end

