-- ==== Sys2Proof/Tests/Slice0.lean ====
section
/-!
SUPPORT. The model's own tests, and a witness for every obligation that has hypotheses. The expected results are those
of 95_test_vectors.md (V numbers), of the examples in the rules, and of words written out from opcode_table.json; where
neither has a case, the value comes from the reference program of 95_test_vectors.md section 5.
-/

namespace Sys2Proof.Tests

open Sys2Proof Sys2Proof.Machine

/-- An instance with the default wire constants and table, no operation issued. -/
def inst (cap : Nat) (addr : Addr) (buf : List Byte) : State :=
  { buf := buf, cfg := { defaultConfig with cap := cap, localAddr := addr }, request := [], response := none }

/-- The next state of an outcome. -/
def after : Host.Outcome State Fault Refusal → Option State
  | .next t => some t
  | _ => none

theorem next_of_after {o : Host.Outcome State Fault Refusal} {t : State} (h : after o = some t) : o = .next t := by
  cases o with
  | next s => simp only [after, Option.some.injEq] at h; rw [h]
  | fault r => cases h
  | refused r => cases h

/-- The refusal of an outcome. -/
def refusal : Host.Outcome State Fault Refusal → Option Refusal
  | .refused r => some r
  | _ => none

/-- The instruction a byte string begins with, when nothing is left over. -/
def decoded (bytes : List Byte) : Option Instr :=
  match decode bytes with
  | .ok (i, []) => some i
  | _ => none

/-- `A` of 95_test_vectors.md. -/
def frameA : List Byte := [0xA5, 0x04, 0x00, 0x02, 0x00, 0x01, 0x03, 0x01, 0x02, 0x03, 0xB4, 0xC2]

/-- `B` of 95_test_vectors.md. -/
def frameB : List Byte := [0xA5, 0x1A, 0x00, 0x01, 0x01, 0x7F, 0x0E]

/-- The message of `A` (V10). -/
def messageA : Decoded :=
  { category := .command, variant := .standard, priority := .high, dst := 0x0002, src := some 0x0001,
    payload := [0x01, 0x02, 0x03] }

/-- The message of `B` (V14). -/
def messageB : Decoded :=
  { category := .status, variant := .compatible, priority := .normal, dst := 0x0001, src := none, payload := [0x7F] }

/-- The payload `00 01 02 …` of `n` bytes (V7 to V9). -/
def countUp (n : Nat) : List Byte := (List.range n).map (BitVec.ofNat 8)

/-- `A5 00 00 00 00 00 38` of V18: a marker that declares 56 payload bytes. -/
def stall : List Byte := [0xA5, 0x00, 0x00, 0x00, 0x00, 0x00, 0x38]

/-! ### Well-formedness -/

theorem test_wellformed_refuses_standard_payload_length :
    Instr.wellFormed (.frameCommandStandard .low false 0 0 2 [0x01] 0) = false ∧
    Instr.wellFormed (.frameStatusStandard .low false 0 0 0 [0x01] 0) = false ∧
    Instr.wellFormed (.frameCooperationStandard .low false 0 0 57 [0x01] 0) = false ∧
    Instr.wellFormed (.frameExtendedStandard .low false 0 0 56 [] 0) = false := by decide

theorem test_wellformed_refuses_compatible_payload_length :
    Instr.wellFormed (.frameCommandCompatible .low false 0 2 [0x01] 0) = false ∧
    Instr.wellFormed (.frameStatusCompatible .low false 0 0 [0x01] 0) = false ∧
    Instr.wellFormed (.frameCooperationCompatible .low false 0 255 [0x01] 0) = false ∧
    Instr.wellFormed (.frameExtendedCompatible .low false 0 1 [] 0) = false := by decide

theorem test_wellformed_accepts_the_counted_payload :
    Instr.wellFormed (.frameCommandStandard .low false 0 0 56 (countUp 56) 0) = true ∧
    Instr.wellFormed (.frameCommandCompatible .low false 0 57 [] 0) = true := by decide +kernel

/-! ### Decoding: words written out from 30_encoding.md R71 and the HDR rows -/

theorem test_decode_reset : decoded [0b00000_000] = some .reset := by decide
theorem test_decode_crc4 : decoded [0b00000_001, 0x01, 0x12, 0x01, 0x34, 0x00] = some (.crc4 [0x12, 0x34]) := by decide
theorem test_decode_crc16 : decoded [0b00000_010, 0x01, 0xFF, 0x00] = some (.crc16 [0xFF]) := by decide
theorem test_decode_classify :
    decoded [0b00000_011, 0x00] = some (.classify .key) ∧ decoded [0b00000_011, 0x01] = some (.classify .pointerMotion) ∧
    decoded [0b00000_011, 0x02] = some (.classify .indicatorState) ∧
    decoded [0b00000_011, 0x03] = some (.classify .batteryLevel) ∧
    decoded [0b00000_011, 0x04] = some (.classify .configSync) ∧
    decoded [0b00000_011, 0x05] = some (.classify .coordination) ∧ decoded [0b00000_011, 0x06] = none := by decide
theorem test_decode_encode :
    decoded [0b00000_100, 0x02, 0x01, 0x03, 0x12, 0x34, 0x01, 0xA5, 0x00] =
      some (.encode .cooperation .compatible .critical 0x1234 [0xA5]) := by decide
theorem test_decode_encodei :
    decoded [0b00000_101, 0x03, 0x00, 0x05, 0xBE, 0xEF, 0x00] =
      some (.encodei .extended .standard .coordination 0xBEEF []) := by decide
theorem test_decode_process : decoded [0b00000_110, 0x01, 0xA5, 0x01, 0x04, 0x00] = some (.process [0xA5, 0x04]) := by decide
theorem test_decode_reserved_op7 : decoded [0b00000_111] = some .reservedOp7 := by decide
theorem test_decode_frame_command_standard :
    decoded [0xA5, 0b00000_10_1, 0x00, 0x02, 0x00, 0x01, 0x00, 0x93, 0x48] =
      some (.frameCommandStandard .high true 0x0002 0x0001 0 [] 0x9348) := by decide
theorem test_decode_frame_command_compatible :
    decoded [0xA5, 0b00001_10_0, 0x00, 0x02, 0x03, 0x01, 0x02, 0x03, 0x09] =
      some (.frameCommandCompatible .high false 0x0002 3 [0x01, 0x02, 0x03] 0x09) := by decide
theorem test_decode_frame_status_standard :
    decoded [0xA5, 0b00010_01_0, 0x00, 0x01, 0x00, 0x02, 0x00, 0x8F, 0x02] =
      some (.frameStatusStandard .normal false 0x0001 0x0002 0 [] 0x8F02) := by decide
theorem test_decode_frame_status_compatible :
    decoded [0xA5, 0b00011_01_0, 0x00, 0x01, 0x00, 0x09] =
      some (.frameStatusCompatible .normal false 0x0001 0 [] 0x09) := by decide
theorem test_decode_frame_cooperation_standard :
    decoded [0xA5, 0b00100_11_0, 0x01, 0x02, 0xBE, 0xEF, 0x03, 0xA5, 0xA5, 0x00, 0xC8, 0xF7] =
      some (.frameCooperationStandard .critical false 0x0102 0xBEEF 3 [0xA5, 0xA5, 0x00] 0xC8F7) := by decide
theorem test_decode_frame_cooperation_compatible :
    decoded [0xA5, 0b00101_11_0, 0x00, 0x02, 0xFF, 0x77] =
      some (.frameCooperationCompatible .critical false 0x0002 255 [] 0x77) := by decide
theorem test_decode_frame_extended_standard :
    decoded [0xA5, 0b00110_00_1, 0x12, 0x34, 0x56, 0x78, 0x01, 0xEE, 0xAB, 0xCD] =
      some (.frameExtendedStandard .low true 0x1234 0x5678 1 [0xEE] 0xABCD) := by decide
theorem test_decode_frame_extended_compatible :
    decoded [0xA5, 0b00111_01_0, 0x12, 0x34, 0x01, 0xEE, 0x0D] =
      some (.frameExtendedCompatible .normal false 0x1234 1 [0xEE] 0x0D) := by decide
theorem test_decode_frame_reserved_cat_4_7 :
    decoded [0xA5, 0b01_10_1_01_0] = some (.frameReservedCat4to7 0b10 .compatible .normal false) := by decide
theorem test_decode_frame_reserved_cat_8_15 :
    decoded [0xA5, 0b1_111_0_00_1] = some (.frameReservedCat8to15 0b111 .standard .low true) := by decide

/-- Bytes that are no instruction are refused by name. -/
theorem test_decode_refuses_by_name :
    decode [] = .error .truncated ∧ decode [0x08] = .error (.unknownSelector 0x08) ∧
    decode [0x04, 0x04, 0x00, 0x00, 0x00, 0x00, 0x00] = .error (.badCategory 0x04) ∧
    decode [0x04, 0x00, 0x02, 0x00, 0x00, 0x00, 0x00] = .error (.badVariant 0x02) ∧
    decode [0x04, 0x00, 0x00, 0x04, 0x00, 0x00, 0x00] = .error (.badPriority 0x04) ∧
    decode [0x03, 0x06] = .error (.badKind 0x06) ∧ decode [0x06, 0x02] = .error (.badSequenceMark 0x02) ∧
    decode [0xA5, 0x00, 0x00, 0x02, 0x00, 0x01, 0x01, 0x00] = .error .truncated := ⟨rfl, rfl, rfl, rfl, rfl, rfl, rfl, rfl⟩

/-- A two-byte word of the table holds the marker in its first byte (log entry 11). -/
theorem test_decode_table_word_with_marker :
    decodeTableWord 16 0x00A5 = some (.frameCommandStandard .low false 0 0 0 [] 0) ∧
    decodeTableWord 3 0x5 = some (.encodei .command .standard .key 0 []) := by decide

/-! ### The operations -/

/-- R146, its example. -/
theorem test_reset :
    after (exec .reset (inst 512 1 [0x11, 0x22, 0xA5])) = some { inst 512 1 [] with response := some .ok } := by decide

/-- V36, V37, V38, V39, V39a, V39b. -/
theorem test_crc16_vectors :
    crc16 defaultWire [0x00, 0x00, 0x00, 0x00] = 0x84C0 ∧ crc16 defaultWire [0x01, 0x02, 0x03] = 0xADAD ∧
    crc16 defaultWire [0x04, 0x00, 0x02, 0x00, 0x01, 0x03, 0x01, 0x02, 0x03] = 0xB4C2 ∧
    crc16 defaultWire [0x04, 0x00, 0x02, 0x00, 0x01, 0x03, 0x01, 0x02, 0x03, 0xB4, 0xC2] = 0x0000 ∧
    crc16 defaultWire [0x1A, 0x00, 0x01, 0x01, 0x7F] = 0xD881 ∧
    crc16 defaultWire [0x0C, 0x00, 0x02, 0x03, 0x01, 0x02, 0x03] = 0x1DCB := by decide +kernel

/-- V34, V37, V38, V39a, V39b. -/
theorem test_crc4_vectors :
    crc4 defaultWire [0xA5] = 0xD ∧ crc4 defaultWire [0x01, 0x02, 0x03] = 0x2 ∧
    crc4 defaultWire [0x04, 0x00, 0x02, 0x00, 0x01, 0x03, 0x01, 0x02, 0x03] = 0xE ∧
    crc4 defaultWire [0x1A, 0x00, 0x01, 0x01, 0x7F] = 0xE ∧
    crc4 defaultWire [0x0C, 0x00, 0x02, 0x03, 0x01, 0x02, 0x03] = 0x9 := by decide +kernel

/-- The result of an outcome. -/
def result (o : Host.Outcome State Fault Refusal) : Option Result := (after o).bind State.response

/-- V30, V40, V44: the operations as `exec` runs them. -/
theorem test_pure_operations :
    result (exec (.crc16 [0x31, 0x32, 0x33, 0x34, 0x35, 0x36, 0x37, 0x38, 0x39]) (inst 512 1 [])) = some (.okCrc16 0x29B1) ∧
    result (exec (.crc4 [0x31, 0x32, 0x33, 0x34, 0x35, 0x36, 0x37, 0x38, 0x39]) (inst 512 1 [])) = some (.okCrc4 0x4) ∧
    result (exec (.classify .key) (inst 512 1 [])) = some (.okPriority .high) ∧
    result (exec (.classify .key)
      { inst 512 1 [] with cfg := { defaultConfig with classTable := { defaultClassTable with key := .critical } } }) =
      some (.okPriority .critical) := by decide +kernel

/-- V1, V2, V3, V4, V5, V9b, V9c. -/
theorem test_encode_vectors :
    result (exec (.encode .command .standard .high 0x0002 [0x01, 0x02, 0x03]) (inst 512 1 [])) = some (.okFrame frameA) ∧
    result (exec (.encode .command .compatible .high 0x0002 [0x01, 0x02, 0x03]) (inst 512 1 [])) =
      some (.okFrame [0xA5, 0x0C, 0x00, 0x02, 0x03, 0x01, 0x02, 0x03, 0x09]) ∧
    result (exec (.encode .status .standard .normal 0x0001 []) (inst 512 2 [])) =
      some (.okFrame [0xA5, 0x12, 0x00, 0x01, 0x00, 0x02, 0x00, 0x8F, 0x02]) ∧
    result (exec (.encode .status .compatible .normal 0x0001 []) (inst 512 1 [])) =
      some (.okFrame [0xA5, 0x1A, 0x00, 0x01, 0x00, 0x09]) ∧
    result (exec (.encode .cooperation .standard .critical 0x0102 [0xA5, 0xA5, 0x00]) (inst 512 0xBEEF [])) =
      some (.okFrame [0xA5, 0x26, 0x01, 0x02, 0xBE, 0xEF, 0x03, 0xA5, 0xA5, 0x00, 0xC8, 0xF7]) ∧
    result (exec (.encode .status .compatible .normal 0x0002 [0x02]) (inst 512 1 [])) =
      some (.okFrame [0xA5, 0x1A, 0x00, 0x02, 0x01, 0x02, 0x08]) ∧
    result (exec (.encode .command .standard .high 0x0001 [0x04, 0x00, 0x1C]) (inst 512 2 [])) =
      some (.okFrame [0xA5, 0x04, 0x00, 0x01, 0x00, 0x02, 0x03, 0x04, 0x00, 0x1C, 0xEC, 0xDE]) := by decide +kernel

theorem crc_append {W : Nat} (poly init : BitVec W) (x y : List Byte) :
    crc poly init (x ++ y) = crc poly (crc poly init x) y := List.foldl_append

/-- The trailers of V7 and V8, whose bodies are the longest (evaluated in two halves). -/
theorem test_crc_of_the_longest_bodies :
    crc16 defaultWire ([0x30, 0x00, 0x03, 0x00, 0x01, 0x38] ++ countUp 56) = 0xD023 ∧
    crc4 defaultWire ([0x38, 0x00, 0x03, 0x38] ++ countUp 56) = 0x7 := by
  have h : countUp 56 = countUp 28 ++ (countUp 56).drop 28 := by decide +kernel
  have w : crc (W := 16) 0x1021 0xFFFF ([0x30, 0x00, 0x03, 0x00, 0x01, 0x38] ++ countUp 28) = 0x6e3b := by decide +kernel
  have n : crc (W := 4) 0x3 0xF ([0x38, 0x00, 0x03, 0x38] ++ countUp 28) = 0xe := by decide +kernel
  have w' : crc (W := 16) 0x1021 0x6e3b ((countUp 56).drop 28) = 0xD023 := by decide +kernel
  have n' : crc (W := 4) 0x3 0xe ((countUp 56).drop 28) = 0x7 := by decide +kernel
  constructor
  · show crc (W := 16) 0x1021 0xFFFF _ = _
    rw [h, ← List.append_assoc, crc_append, w, w']
  · show crc (W := 4) 0x3 0xF _ = _
    rw [h, ← List.append_assoc, crc_append, n, n']

/-- V7, V8, V9: the lengths at the boundary. -/
theorem test_encode_boundary :
    (frameBytes defaultConfig .extended .standard .low 0x0003 (countUp 56)).length = 65 ∧
    (frameBytes defaultConfig .extended .compatible .low 0x0003 (countUp 56)).length = 62 ∧
    (encodeFrame defaultConfig .extended .standard .low 0x0003 (countUp 56)).isOk = true ∧
    encodeFrame defaultConfig .extended .standard .low 0x0003 (countUp 57) = .error .payloadTooLarge ∧
    encodeFrame defaultConfig .extended .compatible .low 0x0003 (countUp 57) = .error .payloadTooLarge := by
  refine ⟨?_, ?_, ?_, rfl, rfl⟩ <;> decide +kernel

/-- V9a, and the header byte of V44. -/
theorem test_encodei :
    result (exec (.encodei .command .standard .key 0x0002 [0x01, 0x02, 0x03]) (inst 512 1 [])) = some (.okFrame frameA) ∧
    (frameBytes { defaultConfig with classTable := { defaultClassTable with key := .critical } } .command .standard
      (classOf { defaultClassTable with key := .critical } .key) 0x0002 [0x01, 0x02, 0x03])[1]? = some 0x06 := by
  decide +kernel

/-- V10, V14, V15, V16, V24, V27: what one PROCESS yields and keeps. -/
theorem test_process_yields :
    assemble defaultConfig [] frameA = (.message messageA, []) ∧
    assemble defaultConfig [] ([0x00, 0xA5, 0xF0, 0x01] ++ frameA ++ frameB) = (.message messageA, frameB) ∧
    assemble defaultConfig [] ([0xA5, 0xA5] ++ frameA) = (.message messageA, []) ∧
    assemble defaultConfig [] ([0xA5, 0x04, 0x00, 0x02, 0x00, 0x01, 0x03, 0x00, 0x02, 0x03, 0xB4, 0xC2] ++ frameB) =
      (.message messageB, []) ∧
    assemble defaultConfig [] [0xA5, 0x05, 0x00, 0x02, 0x00, 0x01, 0x00, 0x93, 0x48] =
      (.message { messageA with payload := [] }, []) ∧
    assemble defaultConfig frameA [0x55] = (.message messageA, [0x55]) := by decide +kernel

/-- V13, V17, V17a, V23, V26, V20 (the middle operation), V19 (the second): what one PROCESS without a message keeps. -/
theorem test_process_keeps :
    assemble defaultConfig [] [0x11, 0x22, 0x33] = (.noMessage, [0x11, 0x22, 0x33]) ∧
    assemble defaultConfig [] [0xA5, 0x00, 0x00, 0x02, 0x00, 0x01, 0x39] = (.noMessage, [0x00, 0x00, 0x02, 0x00, 0x01, 0x39]) ∧
    assemble defaultConfig [] [0xA5, 0x08, 0x00, 0x02, 0xFF] = (.noMessage, [0x08, 0x00, 0x02, 0xFF]) ∧
    assemble defaultConfig [] [0xA5, 0x1A, 0x00, 0x01, 0x01, 0x7F, 0x1E] = (.noMessage, [0x1A, 0x00, 0x01, 0x01, 0x7F, 0x1E]) ∧
    assemble defaultConfig [] [0xA5, 0xF0, 0x01, 0x02] = (.noMessage, [0xF0, 0x01, 0x02]) ∧
    assemble { defaultConfig with cap := 65 } (List.replicate 60 0x11) (List.replicate 6 0x22) =
      (.err .bufferFull, List.replicate 60 0x11) ∧
    assemble defaultConfig ([0xA5, 0x00, 0x00, 0x00, 0x00, 0x00, 0x0C] ++ frameA) [0x00, 0x00] =
      (.message messageA, [0x00, 0x00]) := by decide +kernel

/-- How many of the bit flips of a frame have a verdict that `p` holds of. -/
def flipsWith (f : List Byte) (p : Verdict → Bool) : Nat :=
  (((List.range f.length).drop 1).flatMap fun k => (List.range 8).filter fun i => p (judge defaultWire (flipBit f k i) 0)).length

/-- V28: the flips of `A` and of `B` that leave the marker, by their verdict. -/
theorem test_single_bit_flips :
    flipsWith frameA (· == .reject .invalidCrc) = 80 ∧ flipsWith frameA (· == .reject .unknownFrameCategory) = 2 ∧
    flipsWith frameA (· == .reject .invalidLength) = 2 ∧ flipsWith frameA (· == .incomplete) = 4 ∧
    flipsWith frameB (· == .reject .invalidCrc) = 38 ∧ flipsWith frameB (· == .reject .unknownFrameCategory) = 2 ∧
    flipsWith frameB (· == .reject .invalidLength) = 2 ∧ flipsWith frameB (· == .incomplete) = 6 := by decide +kernel

theorem test_reserved_op7 : refusal (exec .reservedOp7 (inst 512 1 [])) = some .reservedOperation := by decide

/-- A message field by field. -/
def message (cat : Category) (var : Variant) (pri : Priority) (dst : Addr) (src : Option Addr) (payload : List Byte) : Decoded :=
  { category := cat, variant := var, priority := pri, dst := dst, src := src, payload := payload }

/-- What a frame row leaves in an empty instance: its result and the buffer. -/
def arrival (i : Instr) : Option (Option Result × List Byte) :=
  (after (exec i (inst 512 1 []))).map fun t => (t.response, t.buf)

/-- V24, V3, V5 (the frames of 95_test_vectors.md as rows), and an Extended frame of the reference program. -/
theorem test_frame_rows_standard :
    arrival (.frameCommandStandard .high true 0x0002 0x0001 0 [] 0x9348) =
      some (some (.message (message .command .standard .high 0x0002 (some 0x0001) [])), []) ∧
    arrival (.frameStatusStandard .normal false 0x0001 0x0002 0 [] 0x8F02) =
      some (some (.message (message .status .standard .normal 0x0001 (some 0x0002) [])), []) ∧
    arrival (.frameCooperationStandard .critical false 0x0102 0xBEEF 3 [0xA5, 0xA5, 0x00] 0xC8F7) =
      some (some (.message (message .cooperation .standard .critical 0x0102 (some 0xBEEF) [0xA5, 0xA5, 0x00])), []) ∧
    arrival (.frameExtendedStandard .low true 0x1234 0x5678 1 [0xEE] 0x08D4) =
      some (some (.message (message .extended .standard .low 0x1234 (some 0x5678) [0xEE])), []) := by decide +kernel

/-- V2, V4, and two frames of the reference program. -/
theorem test_frame_rows_compatible :
    arrival (.frameCommandCompatible .high false 0x0002 3 [0x01, 0x02, 0x03] 0x09) =
      some (some (.message (message .command .compatible .high 0x0002 none [0x01, 0x02, 0x03])), []) ∧
    arrival (.frameStatusCompatible .normal false 0x0001 0 [] 0x09) =
      some (some (.message (message .status .compatible .normal 0x0001 none [])), []) ∧
    arrival (.frameCooperationCompatible .critical false 0x0002 1 [0x55] 0x0F) =
      some (some (.message (message .cooperation .compatible .critical 0x0002 none [0x55])), []) ∧
    arrival (.frameExtendedCompatible .normal false 0x0002 1 [0x55] 0x0D) =
      some (some (.message (message .extended .compatible .normal 0x0002 none [0x55])), []) := by decide +kernel

/-- 30_encoding.md R72, R74 (a), R70: a reserved category, a length of 57, and a trailer with upper bits are skipped. -/
theorem test_frame_rows_skipped :
    arrival (.frameReservedCat4to7 0b10 .compatible .normal false) = some (some .noMessage, [0b01101010]) ∧
    arrival (.frameReservedCat8to15 0b111 .standard .low true) = some (some .noMessage, [0b11110001]) ∧
    arrival (.frameCommandStandard .low false 0x0002 0x0001 57 [] 0x1234) =
      some (some .noMessage, [0x00, 0x00, 0x02, 0x00, 0x01, 0x39, 0x12, 0x34]) ∧
    arrival (.frameStatusCompatible .normal false 0x0001 1 [0x7F] 0x1E) =
      some (some .noMessage, [0x1A, 0x00, 0x01, 0x01, 0x7F, 0x1E]) := by decide +kernel

/-- A step takes the one issued operation off the request bytes and runs it. -/
theorem test_step_runs_a_fetched_word :
    after (step (State.reset.withFetchWord 8 0x02)) = some { State.reset with response := some (.okCrc16 0xFFFF) } ∧
    refusal (step (State.reset.withFetchWord 8 0x07)) = some .reservedOperation ∧
    refusal (step { State.reset with request := [0x09] }) = some (.malformedRequest (.unknownSelector 0x09)) := by
  decide +kernel

/-- 30_encoding.md R71: the status codes; 60_exceptions.md R153: the labels; 10_state.md R30: the derived states. -/
theorem test_status_labels_and_derived_states :
    Result.status (.message messageA) = 1 ∧ Result.status .noMessage = 0 ∧ Verdict.label .incomplete = some .frameTooShort ∧
    Verdict.label (.reject .invalidCrc) = some .invalidCrc ∧ Verdict.label (.accept messageA 12) = none ∧
    assemblerState defaultWire [] = .empty ∧ assemblerState defaultWire frameA = .frameDetected ∧
    assemblerState defaultWire [0x11] = .scanning := by decide

/-! ### Witnesses: for each obligation with hypotheses, a state and operands that meet them, at the boundaries -/

theorem witness_ConstructionGivesConfigurationAndEmptyBuffer :
    65 ≤ ({ defaultConfig with cap := 65 } : Config).cap ∧ ({ defaultConfig with cap := 64 } : Config).cap < 65 := by decide

theorem witness_CrcIsLinearInTheMessage : ([0x04, 0x00] : List Byte).length = ([0x12, 0xFF] : List Byte).length := rfl

theorem witness_SingleBitFlipChangesBothCrcs :
    0 < ([0x00] : List Byte).length ∧ 7 < 8 ∧ flipBit [0x00] 0 7 = [0x80] ∧ 11 < frameA.length := by decide

theorem witness_CrcIsThePolynomialRemainder : 0 < 1 ∧ 0 < 16 := by decide

theorem witness_ReferenceMappingOfKinds : State.reset.cfg.classTable = defaultClassTable := rfl

theorem witness_EncodeWritesTheFrameOrRaisesPayloadTooLarge :
    State.reset.cfg.wire = defaultWire ∧ (countUp 57).length > 56 ∧ (countUp 56).length ≤ 56 ∧ ([] : List Byte).length ≤ 56 :=
  ⟨rfl, by decide +kernel, by decide +kernel, by decide⟩

/-- V1 and V2. -/
theorem witness_EncodedFrameLength :
    encodeFrame defaultConfig .command .standard .high 0x0002 [0x01, 0x02, 0x03] = .ok frameA ∧
    encodeFrame defaultConfig .command .compatible .high 0x0002 [0x01, 0x02, 0x03] =
      .ok [0xA5, 0x0C, 0x00, 0x02, 0x03, 0x01, 0x02, 0x03, 0x09] := by decide +kernel

theorem witness_PayloadTooLargeExactlyForLongPayloads :
    (countUp 57).length > 56 ∧ ¬(countUp 56).length > 56 ∧
    (∀ c v p a b, Instr.reset ≠ .encode c v p a b) ∧ (∀ c v k a b, Instr.reset ≠ .encodei c v k a b) ∧
    ∃ t, exec .reset State.reset = .next t := by
  refine ⟨by decide +kernel, by decide +kernel, ?_, ?_, _, rfl⟩
  · intro c v p a b h; cases h
  · intro c v k a b h; cases h

theorem witness_PureOperationsAreFunctionsOfConfigurationAndOperands :
    isPure (.crc4 []) = true ∧ isPure (.crc16 []) = true ∧ isPure (.classify .key) = true ∧
    isPure (.encode .command .standard .low 0 []) = true ∧ isPure (.encodei .command .standard .key 0 []) = true := by decide

theorem witness_ScanIsTheSameWithAnyEnoughFuel :
    0 ≤ frameA.length ∧ frameA.length - 0 < 13 ∧ frameA.length - 0 < 100 ∧
    frameA.length ≤ frameA.length ∧ frameA.length - frameA.length < 1 := by decide

theorem witness_VerdictsAreStableUnderAppending :
    0 < frameA.length ∧ judge defaultWire frameA 0 ≠ .incomplete ∧
    0 < [0xA5, (0xF0 : Byte)].length ∧ judge defaultWire [0xA5, 0xF0] 0 ≠ .incomplete := by decide +kernel

theorem witness_AcceptedCandidatesAreExactlyTheFrames :
    wireWf defaultWire = true ∧ ([0x11] ++ frameA ++ [0x22])[1]? = some defaultWire.sof ∧
    judge defaultWire ([0x11] ++ frameA ++ [0x22]) 1 = .accept messageA 12 ∧ messageA.wf = true := by decide +kernel

theorem witness_ReservedCategoriesAreRejectedAtOnce :
    ([0xA5, 0x40] : List Byte)[0 + 1]? = some 0x40 ∧ 0x40 ≤ (0x40 : Byte).toNat ∧
    ([0xA5, 0x3F] : List Byte)[0 + 1]? = some 0x3F ∧ (0x3F : Byte).toNat < 0x40 := by decide

theorem witness_LengthsAboveFiftySixAreRejectedAtOnce :
    (∃ h len : Byte, ([0xA5, 0x00, 0, 2, 0, 1, 57] : List Byte)[0 + 1]? = some h ∧ h.toNat < 0x40 ∧
      ([0xA5, 0x00, 0, 2, 0, 1, 57] : List Byte)[0 + (if h.getLsbD 3 then 4 else 6)]? = some len ∧ 56 < len.toNat) ∧
    (∃ h len : Byte, ([0xA5, 0x3F, 0, 2, 56] : List Byte)[0 + 1]? = some h ∧ h.toNat < 0x40 ∧
      ([0xA5, 0x3F, 0, 2, 56] : List Byte)[0 + (if h.getLsbD 3 then 4 else 6)]? = some len ∧ len.toNat ≤ 56) :=
  ⟨⟨0x00, 57, by decide⟩, ⟨0x3F, 56, by decide⟩⟩

/-- V10 for the right field, V16 for the wrong one. -/
theorem witness_WideIntegrityFieldDecidesCompleteCandidates :
    (frameA[0 + 1]? = some 0x04 ∧ (0x04 : Byte).toNat < 0x40 ∧ (0x04 : Byte).getLsbD 3 = false ∧ frameA[0 + 6]? = some 3 ∧
      (3 : Byte).toNat ≤ 56 ∧ frameA[0 + 7 + (3 : Byte).toNat]? = some 0xB4 ∧ frameA[0 + 8 + (3 : Byte).toNat]? = some 0xC2) ∧
    (0xB4 : Byte) ++ (0xC2 : Byte) = crc (W := 16) 0x1021 0xFFFF ((frameA.drop (0 + 1)).take (6 + (3 : Byte).toNat)) ∧
    (0xB4 : Byte) ++ (0xC2 : Byte) ≠ crc (W := 16) 0x1021 0xFFFF (((flipBit frameA 7 0).drop (0 + 1)).take (6 + (3 : Byte).toNat)) := by
  decide +kernel

/-- `B` for the right byte; V23 for one with an upper bit set. -/
theorem witness_NarrowIntegrityByteDecidesCompleteCandidates :
    (frameB[0 + 1]? = some 0x1A ∧ (0x1A : Byte).toNat < 0x40 ∧ (0x1A : Byte).getLsbD 3 = true ∧ frameB[0 + 4]? = some 1 ∧
      (1 : Byte).toNat ≤ 56 ∧ frameB[0 + 5 + (1 : Byte).toNat]? = some 0x0E) ∧
    (0x0E : Byte) = (crc (W := 4) 0x3 0xF ((frameB.drop (0 + 1)).take (4 + (1 : Byte).toNat))).setWidth 8 ∧
    (0x1E : Byte).extractLsb' 4 4 ≠ 0 ∧
    (flipBit frameB 6 4)[0 + 5 + (1 : Byte).toNat]? = some 0x1E := by decide +kernel

theorem witness_SingleBitFlipsOfAFrameAreRejected :
    defaultConfig.wire = defaultWire ∧
    encodeFrame defaultConfig .command .standard .high 0x0002 [0x01, 0x02, 0x03] = .ok frameA ∧
    0 < frameA.length ∧ 11 < frameA.length ∧ 7 < 8 ∧ 11 ≠ 0 ∧ ¬(11 = 1 ∧ 7 = 3) ∧ 11 ≠ 6 := by decide +kernel

/-- V20: 66 bytes do not fit in 65, and 65 do. -/
theorem witness_BufferFullExactlyWhenTheBytesDoNotFit :
    (∃ t, exec (.process (List.replicate 6 0x22)) (inst 65 1 (List.replicate 60 0x11)) = .next t ∧
      t.response = some (.err .bufferFull)) ∧
    (∃ t, exec (.process (List.replicate 5 0x22)) (inst 65 1 (List.replicate 60 0x11)) = .next t ∧
      t.response = some .noMessage) ∧
    (isPure (.classify .key) = true ∨ Instr.classify .key = .reset) ∧ ∃ t, exec (.classify .key) State.reset = .next t := by
  refine ⟨⟨_, rfl, ?_⟩, ⟨_, rfl, ?_⟩, ?_, _, rfl⟩ <;> decide +kernel

theorem witness_BufferChangesOnlyByAppendingAndDroppingAPrefix :
    (∃ t, exec (.process frameB) (inst 512 1 [0x11]) = .next t) ∧ (∃ t, exec .reset (inst 512 1 [0x11]) = .next t) ∧
    isPure (.crc4 [0x00]) = true ∧ ∃ t, exec (.crc4 [0x00]) (inst 512 1 [0x11]) = .next t :=
  ⟨⟨_, rfl⟩, ⟨_, rfl⟩, rfl, _, rfl⟩

/-- V13 (no marker), V22 (an incomplete candidate). -/
theorem witness_NoneIsQuiescent :
    (∃ t, exec (.process [0x11, 0x22, 0x33]) State.reset = .next t ∧ t.response = some .noMessage) ∧
    (∃ t, exec (.process [0x04]) (inst 512 1 [0xA5]) = .next t ∧ t.response = some .noMessage) := by
  refine ⟨⟨_, rfl, ?_⟩, ⟨_, rfl, ?_⟩⟩ <;> decide +kernel

theorem witness_DrainingEndsInNone : (List.replicate 65 (0x11 : Byte)).length ≤ ({ defaultConfig with cap := 65 } : Config).cap := by
  decide

theorem witness_EncodedFramesDecodeToWhatWasEncoded :
    wireWf State.reset.cfg.wire = true ∧ State.reset.buf = [] ∧
    encodeFrame State.reset.cfg .command .standard .high 0x0002 [0x01, 0x02, 0x03] = .ok frameA ∧
    frameA.length ≤ State.reset.cfg.cap := by decide +kernel

/-- V12 and V22 with an empty piece, then drained. -/
theorem witness_FragmentationDoesNotMatter :
    let p : List (List Byte) := [frameA ++ frameB, [], []]
    let q : List (List Byte) := [frameA.take 5, [], frameA.drop 5, frameB.take 1, frameB.drop 1, []]
    p.flatten = q.flatten ∧ .err .bufferFull ∉ (feed defaultConfig [] p).1 ∧ .err .bufferFull ∉ (feed defaultConfig [] q).1 ∧
    (feed defaultConfig [] p).1.getLast? = some .noMessage ∧ (feed defaultConfig [] q).1.getLast? = some .noMessage ∧
    messages (feed defaultConfig [] p).1 = [messageA, messageB] := by decide +kernel

/-- V24's frame, with the reserved bit set, and the frame of `B`. -/
theorem witness_FramesAreYieldedInStreamOrder :
    let frames : List (Decoded × Bool) := [({ messageA with payload := [] }, true), (messageB, false)]
    wireWf defaultConfig.wire = true ∧ (∀ x ∈ frames, x.1.wf = true) ∧
    (frames.flatMap (fun x => messageFrame defaultConfig.wire x.1 x.2)).length ≤ defaultConfig.cap ∧
    frames.flatMap (fun x => messageFrame defaultConfig.wire x.1 x.2) =
      [0xA5, 0x05, 0x00, 0x02, 0x00, 0x01, 0x00, 0x93, 0x48] ++ frameB := by decide +kernel

/-- V14: garbage with a spurious marker, then `A` and `B`. -/
theorem witness_ResynchronisationLosesNoFrame :
    let g : List Byte := [0x00, 0xA5, 0xF0, 0x01]
    wireWf defaultConfig.wire = true ∧
    encodeFrame defaultConfig .command .standard .high 0x0002 [0x01, 0x02, 0x03] = .ok frameA ∧
    encodeFrame defaultConfig .status .compatible .normal 0x0001 [0x7F] = .ok frameB ∧
    (g ++ frameA ++ frameB).length ≤ defaultConfig.cap ∧
    (∀ i, i < g.length → (g ++ frameA ++ frameB)[i]? = some defaultConfig.wire.sof →
      (judge defaultConfig.wire (g ++ frameA ++ frameB) i).isReject = true) := by decide +kernel

/-- V18. -/
theorem witness_IncompleteCandidateHoldsBackWhatFollows :
    let stream := stall ++ frameA ++ frameB
    stream.length ≤ defaultConfig.cap ∧ stream[0]? = some defaultConfig.wire.sof ∧
    (∀ j, j < 0 → stream[j]? = some defaultConfig.wire.sof → (judge defaultConfig.wire stream j).isReject = true) ∧
    judge defaultConfig.wire stream 0 = .incomplete := by decide +kernel

/-- V21, and the exact fit of V20. -/
theorem witness_MarkerFreeBytesAreKeptUntilReset :
    let s := inst 65 1 (List.replicate 60 0x11 ++ List.replicate 5 0x22)
    MarkerFree s.cfg.wire (s.buf ++ [0x33]) ∧ s.buf.length = s.cfg.cap ∧ ([0x33] : List Byte) ≠ [] ∧
    MarkerFree (inst 65 1 (List.replicate 60 0x11)).cfg.wire ((inst 65 1 (List.replicate 60 0x11)).buf ++ List.replicate 5 0x22) ∧
    (inst 65 1 (List.replicate 60 0x11)).buf.length + (List.replicate 5 (0x22 : Byte)).length ≤
      (inst 65 1 (List.replicate 60 0x11)).cfg.cap := by decide +kernel

theorem witness_FullBufferWithAMarkerMakesProgress :
    65 ≤ (0xA5 :: List.replicate 64 (0x00 : Byte)).length ∧
    (inst 65 1 (List.replicate 65 0x11)).Inv ∧ (inst 65 1 (List.replicate 65 0x11)).buf.length = (inst 65 1 (List.replicate 65 0x11)).cfg.cap ∧
    ∃ t, exec (.process []) (inst 65 1 (List.replicate 65 0x11)) = .next t ∧ t.buf = (inst 65 1 (List.replicate 65 0x11)).buf := by
  refine ⟨by decide, ⟨by decide, by decide⟩, by decide, _, rfl, ?_⟩
  decide +kernel

theorem witness_ProcessDoesNotReadAddressOrTable : ∃ t, exec (.process frameA) State.reset = .next t := ⟨_, rfl⟩

theorem witness_FrameRowsUnderDefaultsAreTheirEncoding :
    State.reset.cfg.wire = defaultWire ∧ isPure (.frameReservedCat4to7 0 .standard .low false) = false ∧
    Instr.frameReservedCat4to7 0 .standard .low false ≠ .reset ∧
    Instr.frameReservedCat4to7 0 .standard .low false ≠ .reservedOp7 ∧
    (∀ newBytes, Instr.frameReservedCat4to7 0 .standard .low false ≠ .process newBytes) :=
  ⟨rfl, rfl, by decide, by decide, fun _ h => by cases h⟩

theorem witness_RightFramesAreYielded :
    (inst 65 1 []).cfg.wire = defaultWire ∧ (inst 65 1 []).buf = [] ∧ (countUp 56).length ≤ 56 ∧
    9 + (countUp 56).length ≤ (inst 65 1 []).cfg.cap :=
  ⟨rfl, rfl, by decide +kernel, by decide +kernel⟩

theorem witness_ReservedCategoryRowsAreSkipped :
    State.reset.cfg.wire = defaultWire ∧ State.reset.buf = [] ∧ 2 ≤ State.reset.cfg.cap := by decide

theorem witness_DecodeOfEncodeIsTheInstruction :
    Instr.wellFormed (.frameCommandStandard .high true 0x0002 0x0001 0 [] 0x9348) = true ∧
    Instr.wellFormed (.encode .command .standard .low 0 (countUp 57)) = true := by decide +kernel

theorem witness_DecodedBytesAreTheEncoding : decode (frameB ++ [0x00]) = .ok (.frameStatusCompatible .normal false 0x0001 1 [0x7F] 0x0E, [0x00]) :=
  rfl

theorem witness_StepRunsTheDecodedOperation :
    decode (State.reset.withFetchWord 8 0x06).request = .ok (.process [], []) ∧
    ({ State.reset with request := [0x08] } : State).request ≠ [] ∧
    decode ({ State.reset with request := [0x08] } : State).request = .error (.unknownSelector 0x08) := by
  refine ⟨rfl, by decide, rfl⟩

theorem witness_IdleStepChangesNothing : State.reset.request = [] := rfl

theorem witness_IssuedOperationsRunInOrder :
    (Instr.process frameA).wellFormed = true ∧ Instr.reset.wellFormed = true ∧ State.reset.request = [] ∧
    ∃ t, exec (.process frameA) (State.reset.issue .reset) = .next t :=
  ⟨rfl, rfl, rfl, _, rfl⟩

theorem witness_EveryOperationIsTotal :
    Instr.process [] ≠ .reservedOp7 ∧ Instr.frameReservedCat8to15 7 .compatible .critical true ≠ .reservedOp7 := by decide

theorem witness_ConfigurationIsConstant : ∃ t, step (State.reset.withFetchWord 8 0x00) = .next t := ⟨_, rfl⟩

theorem witness_StepKeepsTheBufferWithinCapacity :
    State.reset.Inv ∧ ∃ t, step (State.reset.withFetchWord 8 0x14) = .next t ∧ t.buf ≠ [] := by
  refine ⟨⟨by decide, by decide⟩, _, rfl, ?_⟩
  decide +kernel

theorem witness_InvariantHoldsAfterConstruction : ∃ t, construct { defaultConfig with cap := 65 } = .next t := ⟨_, rfl⟩

end Sys2Proof.Tests
end

section
/-!
SUPPORT. Proofs about 30_encoding.md: the integrity fields of R69 and R70 and the priority codes of R66. The CRC is run
backwards: under an odd polynomial a step that ends in a value with bit 0 clear can only have been a shift without
subtraction, so the register that leads to a given value is determined (`crcBit_eq_iff`).
-/

namespace Sys2Proof.Machine

/-! ### The CRC backwards -/

/-- The register before a CRC step on `bit` that ended in `v` without subtracting the polynomial. -/
def crcUnbit {W : Nat} (bit : Bool) (v : BitVec (W + 1)) : BitVec (W + 1) := .cons bit (v.extractLsb' 1 W)

theorem getLsbD_crcUnbit {W i : Nat} (bit : Bool) (v : BitVec (W + 1)) (hi : i < W) :
    (crcUnbit bit v).getLsbD i = v.getLsbD (i + 1) := by
  simp [crcUnbit, BitVec.getLsbD_cons, hi, Nat.ne_of_lt hi, Nat.add_comm]

/-- A register shifts out its top bit: it is that bit over the bits a shift keeps. -/
theorem shiftLeft_one_eq_iff {W : Nat} {c v : BitVec (W + 1)} (hv : v.getLsbD 0 = false) :
    c <<< 1 = v ↔ c = crcUnbit c.msb v := by
  constructor
  · rintro rfl
    apply BitVec.eq_of_getLsbD_eq
    intro i hi
    by_cases hlt : i < W
    · rw [getLsbD_crcUnbit _ _ hlt]
      simp [-BitVec.getLsbD_eq_getElem, hlt]
    · obtain rfl : i = W := by omega
      rw [crcUnbit, BitVec.getLsbD_cons, if_pos rfl, BitVec.msb_eq_getLsbD_last, Nat.add_sub_cancel]
  · intro hc
    apply BitVec.eq_of_getLsbD_eq
    intro i hi
    cases i with
    | zero => rw [hv, BitVec.getLsbD_shiftLeft]; simp
    | succ j =>
      rw [BitVec.getLsbD_shiftLeft, hc, ← getLsbD_crcUnbit c.msb v (by omega : j < W)]
      simp [hi]

/-- With an odd polynomial, the one register from which a CRC step leads to an even value. -/
theorem crcBit_eq_iff {W : Nat} {poly v : BitVec (W + 1)} (hpoly : poly.getLsbD 0 = true) (hv : v.getLsbD 0 = false)
    (c : BitVec (W + 1)) (bit : Bool) : crcBit poly c bit = v ↔ c = crcUnbit bit v := by
  have hmsb : (crcUnbit bit v).msb = bit := by simp [crcUnbit]
  by_cases hfb : c.msb = bit
  · subst hfb
    simpa [crcBit] using shiftLeft_one_eq_iff hv
  · have hodd : (crcBit poly c bit).getLsbD 0 = true := by simp [crcBit, hfb, hpoly]
    constructor
    · rintro rfl
      exact absurd hodd (by rw [hv]; decide)
    · rintro rfl
      exact absurd hmsb hfb

theorem getLsbD_foldr_crcUnbit {W : Nat} (bits : List Bool) (v : BitVec (W + 1)) {i : Nat} (hi : i + bits.length < W + 1) :
    (bits.foldr crcUnbit v).getLsbD i = v.getLsbD (i + bits.length) := by
  induction bits generalizing i with
  | nil => rfl
  | cons bit bits ih =>
    simp only [List.length_cons] at hi ⊢
    rw [List.foldr_cons, getLsbD_crcUnbit _ _ (by omega), ih (by omega)]
    congr 1
    omega

/-- With an odd polynomial, the one register from which a run of CRC steps leads to a value whose bits, as many as there
were steps, are clear from bit 0 on. -/
theorem foldl_crcBit_eq_iff {W : Nat} {poly v : BitVec (W + 1)} (hpoly : poly.getLsbD 0 = true) (bits : List Bool)
    (hlen : bits.length ≤ W + 1) (hv : ∀ i < bits.length, v.getLsbD i = false) (c : BitVec (W + 1)) :
    bits.foldl (crcBit poly) c = v ↔ c = bits.foldr crcUnbit v := by
  induction bits generalizing c with
  | nil => rfl
  | cons bit bits ih =>
    simp only [List.length_cons] at hlen hv
    have hlow : (bits.foldr crcUnbit v).getLsbD 0 = false := by
      rw [getLsbD_foldr_crcUnbit bits v (by omega)]
      exact hv _ (by omega)
    rw [List.foldl_cons, List.foldr_cons, ih (by omega) (fun i hi => hv i (by omega)), crcBit_eq_iff hpoly hlow]

/-- The bits of a byte in the order the CRC takes them (40_crc.md R80). -/
def msbFirstBits (b : Byte) : List Bool := [7, 6, 5, 4, 3, 2, 1, 0].map b.getLsbD

theorem crcByte_eq_foldl_bits {W : Nat} (poly c : BitVec W) (b : Byte) :
    crcByte poly c b = (msbFirstBits b).foldl (crcBit poly) c := by
  simp only [crcByte, msbFirstBits, List.foldl_map]

theorem foldr_crcUnbit_msbFirstBits (b v : Byte) :
    (msbFirstBits b).foldr crcUnbit (v ++ 0#8 : BitVec 16) = b ++ v := by
  apply BitVec.eq_of_getLsbD_eq
  intro i hi
  rw [BitVec.getLsbD_append]
  by_cases hlow : i < 8
  · rw [getLsbD_foldr_crcUnbit _ _ (by simp [msbFirstBits]; omega), BitVec.getLsbD_append]
    simp [msbFirstBits, hlow]
  · obtain ⟨j, rfl⟩ : ∃ j, i = j + 8 := ⟨i - 8, by omega⟩
    have hj : j < 8 := by omega
    interval_cases j <;> simp [msbFirstBits, crcUnbit, BitVec.getLsbD_cons, -BitVec.getLsbD_eq_getElem]

/-- A byte step of a 16-bit CRC that clears the low byte had the message byte as its high byte. -/
theorem crcByte_eq_append_zero_iff {poly : BitVec 16} (hpoly : poly.getLsbD 0 = true) (c : BitVec 16) (b v : Byte) :
    crcByte poly c b = v ++ 0#8 ↔ c = b ++ v := by
  have hlow : ∀ i < (msbFirstBits b).length, (v ++ 0#8 : BitVec 16).getLsbD i = false := by
    intro i (hi : i < 8)
    rw [BitVec.getLsbD_append]
    simp [hi]
  rw [crcByte_eq_foldl_bits, foldl_crcBit_eq_iff hpoly _ (by simp [msbFirstBits]) hlow, foldr_crcUnbit_msbFirstBits]

/-- 40_crc.md R85 for every odd polynomial and every seed: the residue of a 16-bit CRC is zero exactly after its own two
bytes, most significant byte first. -/
theorem crc_append_pair_eq_zero_iff {poly : BitVec 16} (hpoly : poly.getLsbD 0 = true) (init : BitVec 16) (m : List Byte)
    (hi lo : Byte) : crc poly init (m ++ [hi, lo]) = 0 ↔ hi ++ lo = crc poly init m := by
  have hfold : crc poly init (m ++ [hi, lo]) = crcByte poly (crcByte poly (crc poly init m) hi) lo := by
    simp [crc]
  have hzero : (0 : BitVec 16) = 0#8 ++ 0#8 := rfl
  rw [hfold, hzero, crcByte_eq_append_zero_iff hpoly, crcByte_eq_append_zero_iff hpoly, eq_comm]

/-! ### Complete candidates -/

theorem byteAt_of_getElem? {buf : List Byte} {i : Nat} {b : Byte} (h : buf[i]? = some b) : byteAt buf i = b := by
  simp [byteAt, List.getD_eq_getElem?_getD, h]

/-- A body and the two trailer bytes after it. -/
theorem take_add_two_of_getElem? {buf : List Byte} {start n : Nat} {hi lo : Byte} (hhi : buf[start + n]? = some hi)
    (hlo : buf[start + n + 1]? = some lo) :
    (buf.drop start).take (n + 2) = (buf.drop start).take n ++ [hi, lo] := by
  rw [List.take_add_one, List.take_add_one, List.getElem?_drop, List.getElem?_drop, hhi, ← Nat.add_assoc, hlo]
  simp

/-- The integrity test decides a complete candidate of known category and valid length (43_assembler.md R123). -/
theorem judge_complete {w : Wire} {buf : List Byte} {p : Nat} {h len : Byte} {cat : Category} {var : Variant}
    (hhdr : byteAt buf (p + 1) = h) (hcat : catOf w (headerCat w.hdr h) = some cat)
    (hvar : varOf w (headerVar w.hdr h) = var) (hlen : byteAt buf (p + headLength var - 1) = len)
    (hmax : len.toNat ≤ maxPayload) (hall : p + (headLength var + len.toNat + trailerLength var) ≤ buf.length) :
    judge w buf p =
      if integrityOk w var buf p (p + headLength var + len.toNat) then
        .accept (decodedAt w cat var (priOf w (headerPri w.hdr h)) buf p (p + headLength var + len.toNat))
          (headLength var + len.toNat + trailerLength var)
      else .reject .invalidCrc := by
  have hhead : 2 ≤ headLength var := by cases var <;> decide
  have h2 : ¬ buf.length - p < 2 := by omega
  have hH : ¬ buf.length - p < headLength var := by omega
  have hL : ¬ len.toNat > maxPayload := by omega
  have hT : ¬ buf.length - p < headLength var + len.toNat + trailerLength var := by omega
  simp only [judge, hhdr, hcat, hvar, hlen, h2, hH, hL, hT, if_false]

/-- The header bytes `0x00` to `0x3F` have a category (30_encoding.md R65). -/
theorem exists_catOf_defaultWire : ∀ h : Byte, h.toNat < 0x40 →
    ∃ cat, catOf defaultWire (headerCat defaultWire.hdr h) = some cat := by
  simp only [← Option.isSome_iff_exists]
  decide

/-- The variant is bit 3 of the header byte (30_encoding.md R64). -/
theorem varOf_defaultWire : ∀ h : Byte,
    varOf defaultWire (headerVar defaultWire.hdr h) = variantOfBit (h.getLsbD 3) := by
  decide

/-- With the default wire constants the integrity test alone decides a complete candidate whose header byte is below
`0x40` and whose length byte is at most 56. -/
theorem judge_complete_defaultWire {buf : List Byte} {p : Nat} {h len last : Byte} (var : Variant)
    (hhdr : buf[p + 1]? = some h) (hknown : h.toNat < 0x40) (hvar : h.getLsbD 3 = variantBit var)
    (hlen : buf[p + headLength var - 1]? = some len) (hmax : len.toNat ≤ maxPayload)
    (hlast : buf[p + headLength var + len.toNat + trailerLength var - 1]? = some last) :
    (integrityOk defaultWire var buf p (p + headLength var + len.toNat) = true →
      ∃ d, judge defaultWire buf p = .accept d (headLength var + len.toNat + trailerLength var)) ∧
    (integrityOk defaultWire var buf p (p + headLength var + len.toNat) ≠ true →
      judge defaultWire buf p = .reject .invalidCrc) := by
  obtain ⟨cat, hcat⟩ := exists_catOf_defaultWire h hknown
  have hvarOf : varOf defaultWire (headerVar defaultWire.hdr h) = var := by
    rw [varOf_defaultWire, hvar, variantOfBit_bit]
  obtain ⟨hend, -⟩ := List.getElem?_eq_some_iff.mp hlast
  have hjudge := judge_complete (byteAt_of_getElem? hhdr) hcat hvarOf (byteAt_of_getElem? hlen) hmax (by omega)
  exact ⟨fun hok => ⟨_, hjudge.trans (if_pos hok)⟩, fun hok => hjudge.trans (if_neg hok)⟩

/-- The Standard integrity test compares the two trailer bytes with the CRC16 of the body (30_encoding.md R69). -/
theorem integrityOk_standard_iff {buf : List Byte} {p n : Nat} {hi lo : Byte} (hhi : buf[p + 7 + n]? = some hi)
    (hlo : buf[p + 8 + n]? = some lo) :
    integrityOk defaultWire .standard buf p (p + 7 + n) = true ↔
      hi ++ lo = crc (W := 16) 0x1021 0xFFFF ((buf.drop (p + 1)).take (6 + n)) := by
  rw [show p + 8 + n = p + 7 + n + 1 by omega] at hlo
  simp only [integrityOk, slice, byteAt_of_getElem? hhi, byteAt_of_getElem? hlo, beq_iff_eq,
    show p + 7 + n - (p + 1) = 6 + n by omega]
  exact eq_comm

/-- The Compatible integrity test compares the whole trailer byte with the CRC4 of the body (30_encoding.md R70). -/
theorem integrityOk_compatible_iff {buf : List Byte} {p n : Nat} {trl : Byte} (htrl : buf[p + 5 + n]? = some trl) :
    integrityOk defaultWire .compatible buf p (p + 5 + n) = true ↔
      trl = (crc (W := 4) 0x3 0xF ((buf.drop (p + 1)).take (4 + n))).setWidth 8 := by
  simp only [integrityOk, slice, byteAt_of_getElem? htrl, beq_iff_eq, show p + 5 + n - (p + 1) = 4 + n by omega]
  exact eq_comm

/-- A zero-extended CRC4 leaves the upper four bits of the trailer byte zero (30_encoding.md R70). -/
theorem upperBits_setWidth : ∀ x : BitVec 4, (x.setWidth 8 : Byte).extractLsb' 4 4 = 0 := by decide

/-! ### Priority codes -/

theorem wireWf_defaultWire : wireWf defaultWire = true := by decide

/-- The default codes are the ranks of the priorities (30_encoding.md R66). -/
theorem priCode_defaultWire_toNat (p : Priority) : (priCode defaultWire p).toNat = priorityRank p := by
  cases p <;> rfl

/-! ### The obligations -/

/-- Settles O26: the residue form is `crc_append_pair_eq_zero_iff` on body and trailer, the verdict is
`judge_complete_defaultWire` with the Standard integrity test. -/
theorem wideIntegrityFieldDecidesCompleteCandidates : Obligations.WideIntegrityFieldDecidesCompleteCandidates := by
  unfold Obligations.WideIntegrityFieldDecidesCompleteCandidates
  intro buf p h len hi lo hhdr hknown hstd hlen hmax hhi hlo
  have htake : (buf.drop (p + 1)).take (8 + len.toNat) = (buf.drop (p + 1)).take (6 + len.toNat) ++ [hi, lo] := by
    rw [show 8 + len.toNat = 6 + len.toNat + 2 by omega]
    apply take_add_two_of_getElem?
    · rwa [show p + 1 + (6 + len.toNat) = p + 7 + len.toNat by omega]
    · rwa [show p + 1 + (6 + len.toNat) + 1 = p + 8 + len.toNat by omega]
  have hlast : buf[p + 7 + len.toNat + 2 - 1]? = some lo := by
    rwa [show p + 7 + len.toNat + 2 - 1 = p + 8 + len.toNat by omega]
  obtain ⟨haccept, hreject⟩ := judge_complete_defaultWire .standard hhdr hknown hstd hlen hmax hlast
  have hok := integrityOk_standard_iff hhi hlo
  refine ⟨?_, fun hright => ?_, fun hwrong => hreject (mt hok.mp hwrong)⟩
  · rw [htake, crc_append_pair_eq_zero_iff (by decide)]
  · rw [show 9 + len.toNat = 7 + len.toNat + 2 by omega]
    exact haccept (hok.mpr hright)

/-- Settles O27: `judge_complete_defaultWire` with the Compatible integrity test; a zero-extended CRC4 has its upper four
bits zero. -/
theorem narrowIntegrityByteDecidesCompleteCandidates : Obligations.NarrowIntegrityByteDecidesCompleteCandidates := by
  unfold Obligations.NarrowIntegrityByteDecidesCompleteCandidates
  intro buf p h len trl hhdr hknown hcmp hlen hmax htrl
  obtain ⟨haccept, hreject⟩ := judge_complete_defaultWire .compatible hhdr hknown hcmp hlen hmax htrl
  have hok := integrityOk_compatible_iff htrl
  refine ⟨fun hright => ?_, fun hwrong => hreject (mt hok.mp hwrong), fun hupper => hreject (mt hok.mp ?_)⟩
  · rw [show 6 + len.toNat = 5 + len.toNat + 1 by omega]
    exact haccept (hok.mpr hright)
  · rintro rfl
    exact hupper (upperBits_setWidth _)

/-- Settles O46: the code of a priority is its rank, and four different codes of two bits are all of them
(`priCode_priOf`). -/
theorem priorityCodesAreOrderedAndComplete : Obligations.PriorityCodesAreOrderedAndComplete := by
  unfold Obligations.PriorityCodesAreOrderedAndComplete
  refine ⟨rfl, rfl, rfl, rfl, fun p q => ?_, priCode_priOf wireWf_defaultWire⟩
  rw [priCode_defaultWire_toNat, priCode_defaultWire_toNat]

end Sys2Proof.Machine
end

section
/-!
SUPPORT. Proofs about 40_crc.md: CRC4 and CRC16, the byte-at-a-time form of R84 and the residue of R85. A CRC step takes
a message bit into the top of the register; taking a whole byte there first and stepping eight times on no message bit
comes to the same (`iterate_crcBit_false`), because a bit that waits below the top only moves up, as `crcUnbit` says
backwards.
-/

namespace Sys2Proof.Machine

/-! ### The byte-at-a-time form -/

/-- Message bits may wait in the register: with `bit` at its top and `v` one place lower, a step on no message bit takes
`bit` in and moves `v` to its place. -/
theorem crcBit_xor_crcUnbit {W : Nat} (poly c : BitVec (W + 1)) (bit : Bool) {v : BitVec (W + 1)}
    (hv : v.getLsbD 0 = false) : crcBit poly (c ^^^ crcUnbit bit v) false = crcBit poly c bit ^^^ v := by
  have hmsb : (crcUnbit bit v).msb = bit := by simp [crcUnbit]
  have hshift : crcUnbit bit v <<< 1 = v := (shiftLeft_one_eq_iff hv).mpr (by rw [hmsb])
  simp only [crcBit, BitVec.msb_xor, hmsb, Bool.xor_false, BitVec.shiftLeft_xor_distrib, hshift]
  split
  · rw [BitVec.xor_assoc, BitVec.xor_comm v, BitVec.xor_assoc]
  · rfl

/-- Taking all message bits into the top of the register first leaves only the steps to do. -/
theorem iterate_crcBit_false {W : Nat} (poly : BitVec (W + 1)) (bits : List Bool) (hlen : bits.length ≤ W + 1)
    (c : BitVec (W + 1)) :
    (fun r => crcBit poly r false)^[bits.length] (c ^^^ bits.foldr crcUnbit 0) = bits.foldl (crcBit poly) c := by
  induction bits generalizing c with
  | nil => exact BitVec.xor_zero
  | cons bit bits ih =>
    simp only [List.length_cons] at hlen
    have hlow : (bits.foldr crcUnbit (0 : BitVec (W + 1))).getLsbD 0 = false := by
      rw [getLsbD_foldr_crcUnbit bits 0 (by omega)]
      exact BitVec.getLsbD_zero
    rw [List.length_cons, Function.iterate_succ_apply, List.foldr_cons, List.foldl_cons, crcBit_xor_crcUnbit _ _ _ hlow,
      ih (by omega)]

/-- A byte above eight clear bits is the byte shifted up. -/
theorem append_zero_eq_shiftLeft (b : Byte) : (b ++ 0#8 : BitVec 16) = b.setWidth 16 <<< 8 :=
  (BitVec.append_def b 0#8).trans (by simp [BitVec.shiftLeftZeroExtend_eq])

/-- The message byte of a 16-bit CRC may be taken in before its eight steps (40_crc.md R84). -/
theorem crcByte_eq_iterate (poly c : BitVec 16) (b : Byte) :
    crcByte poly c b = (fun r => crcBit poly r false)^[8] (c ^^^ (b.setWidth 16 <<< 8)) := by
  have htop : (msbFirstBits b).foldr crcUnbit (0 : BitVec 16) = b.setWidth 16 <<< 8 := by
    rw [← append_zero_eq_shiftLeft, ← foldr_crcUnbit_msbFirstBits]
    rfl
  rw [crcByte_eq_foldl_bits, ← iterate_crcBit_false poly (msbFirstBits b) (by simp [msbFirstBits]), htop]
  rfl

/-- The shift of R84 is a CRC step on no message bit. -/
theorem crcBit_false_eq_shift (poly c : BitVec 16) :
    crcBit poly c false = if c.getLsbD 15 then (c <<< 1) ^^^ poly else c <<< 1 := by
  simp only [crcBit, Bool.xor_false, BitVec.msb_eq_getLsbD_last]

/-- The form of R84 through the model's own step. -/
theorem crc16ByteWise_eq (bytes : List Byte) :
    crc16ByteWise bytes =
      bytes.foldl (fun (c : BitVec 16) (b : Byte) =>
        (fun r => crcBit 0x1021 r false)^[8] (c ^^^ (b.setWidth 16 <<< 8))) 0xFFFF := by
  simp only [crcBit_false_eq_shift, crc16ByteWise]

/-! ### Two bytes of a 16-bit value -/

theorem joinBytes_eq_iff (hi lo : Byte) (v : BitVec 16) : joinBytes hi lo = v ↔ hi = hiByte v ∧ lo = loByte v := by
  constructor
  · rintro rfl
    simp
  · rintro ⟨rfl, rfl⟩
    exact joinBytes_hi_lo v

/-! ### The obligations -/

/-- Settles O7: byte by byte, the form of R84 (`crc16ByteWise_eq`) is the bit-serial step (`crcByte_eq_iterate`). -/
theorem crc16EqualsItsByteAtATimeForm : Obligations.Crc16EqualsItsByteAtATimeForm := by
  unfold Obligations.Crc16EqualsItsByteAtATimeForm
  intro bytes
  rw [crc16ByteWise_eq]
  simp only [← crcByte_eq_iterate]
  rfl

/-- Settles O8: `crc_append_pair_eq_zero_iff` for the default constants; two bytes make up a 16-bit value exactly when
they are its high and its low byte. -/
theorem wideCrcResidueIsZeroExactlyForTheRightTrailer : Obligations.WideCrcResidueIsZeroExactlyForTheRightTrailer := by
  unfold Obligations.WideCrcResidueIsZeroExactlyForTheRightTrailer
  intro m a b
  have hodd : defaultWire.crc16Poly.getLsbD 0 = true := by decide
  exact (crc_append_pair_eq_zero_iff hodd _ m a b).trans (joinBytes_eq_iff a b _)

/-- Settles O4: the answer of the operation's arm, and the corner values of R82 run by the kernel. -/
theorem crc16ReturnsTheWideCrc : Obligations.Crc16ReturnsTheWideCrc := by
  unfold Obligations.Crc16ReturnsTheWideCrc
  refine ⟨fun bytes s => rfl, rfl, rfl, ?_⟩
  decide +kernel

/-- Settles O5: the answer of the operation's arm, and the corner values of R83 run by the kernel. -/
theorem crc4ReturnsTheNarrowCrc : Obligations.Crc4ReturnsTheNarrowCrc := by
  unfold Obligations.Crc4ReturnsTheNarrowCrc
  refine ⟨fun bytes s => rfl, rfl, rfl, ?_⟩
  decide +kernel

/-- Settles O6: sixteen steps on literal registers. -/
theorem crcStepTracesOfTheZeroByte : Obligations.CrcStepTracesOfTheZeroByte := by
  unfold Obligations.CrcStepTracesOfTheZeroByte
  exact ⟨by decide, by decide⟩

end Sys2Proof.Machine
end

section
/-!
SUPPORT. Proofs about 41_classifier.md: CLASSIFY answers from the instance's own table (R97), whose default is the
reference mapping (R96).
-/

namespace Sys2Proof.Machine

/-- CLASSIFY hands back the table's entry and does nothing else (41_classifier.md R97). -/
theorem exec_classify (kind : Kind) (s : State) :
    exec (.classify kind) s = .next (s.answer (.okPriority (classOf s.cfg.classTable kind))) := rfl

/-! ### The obligations -/

/-- Settles O12: `exec_classify` at each of the six kinds. -/
theorem classifyReturnsTheTableEntry : Obligations.ClassifyReturnsTheTableEntry := by
  unfold Obligations.ClassifyReturnsTheTableEntry
  intro s
  exact ⟨exec_classify .key s, exec_classify .pointerMotion s, exec_classify .indicatorState s,
    exec_classify .batteryLevel s, exec_classify .configSync s, exec_classify .coordination s⟩

/-- Settles O13: `exec_classify` with the default table, whose six entries are the reference mapping. -/
theorem referenceMappingOfKinds : Obligations.ReferenceMappingOfKinds := by
  unfold Obligations.ReferenceMappingOfKinds
  intro s kind hdefault
  rw [exec_classify, hdefault]
  cases kind <;> rfl

end Sys2Proof.Machine
end

section
/-!
SUPPORT. Proofs about 42_encoder.md: ENCODE byte for byte (R101), the lengths of its frames (R102) and ENCODEI (R104).
-/

namespace Sys2Proof.Machine

/-! ### The operations -/

/-- ENCODE hands back its encoding, frame or error (42_encoder.md R101). -/
theorem exec_encode (cat : Category) (var : Variant) (pri : Priority) (dst : Addr) (payload : List Byte) (s : State) :
    exec (.encode cat var pri dst payload) s =
      .next (answerEncoding s (encodeFrame s.cfg cat var pri dst payload)) := rfl

/-- ENCODE of a payload above 56 bytes raises its one error (42_encoder.md R101, R105). -/
theorem exec_encode_of_lt {payload : List Byte} (hlong : maxPayload < payload.length) (cat : Category) (var : Variant)
    (pri : Priority) (dst : Addr) (s : State) :
    exec (.encode cat var pri dst payload) s = .next (s.raise .payloadTooLarge) := by
  rw [exec_encode, encodeFrame, if_pos hlong, answerEncoding]

/-- ENCODE of any other payload hands back its frame (42_encoder.md R101). -/
theorem exec_encode_of_le {payload : List Byte} (hfit : payload.length ≤ maxPayload) (cat : Category) (var : Variant)
    (pri : Priority) (dst : Addr) (s : State) :
    exec (.encode cat var pri dst payload) s = .next (s.answer (.okFrame (frameBytes s.cfg cat var pri dst payload))) := by
  rw [exec_encode, encodeFrame, if_neg (Nat.not_lt.mpr hfit), answerEncoding]

/-- ENCODE answers and does nothing else. -/
theorem exists_exec_encode_eq_answer (cat : Category) (var : Variant) (pri : Priority) (dst : Addr) (payload : List Byte)
    (s : State) : ∃ r, exec (.encode cat var pri dst payload) s = .next (s.answer r) := by
  obtain ⟨r, hr⟩ := answerEncoding_eq s (encodeFrame s.cfg cat var pri dst payload)
  exact ⟨r, by rw [exec_encode, hr]⟩

/-- ENCODEI is ENCODE with the table's priority (42_encoder.md R104). -/
theorem exec_encodei (cat : Category) (var : Variant) (kind : Kind) (dst : Addr) (payload : List Byte) (s : State) :
    exec (.encodei cat var kind dst payload) s =
      exec (.encode cat var (classOf s.cfg.classTable kind) dst payload) s := rfl

/-! ### The bytes -/

/-- The default header byte as a number: `cat[7:4] var[3] pri[2:1]`, the reserved bit 0 (30_encoding.md R64). -/
theorem headerByte_defaultWire (cat : Category) (var : Variant) (pri : Priority) :
    headerByte defaultWire cat var pri =
      BitVec.ofNat 8 (categoryNumber cat * 16 + variantNumber var * 8 + priorityRank pri * 2) := by
  cases cat <;> cases var <;> cases pri <;> rfl

/-- A Standard frame has 9 bytes beside its payload (30_encoding.md R62). -/
@[simp] theorem length_standardFrame (w : Wire) (hdr : Byte) (dst src : Addr) (len : Byte) (payload : List Byte)
    (crc : BitVec 16) : (standardFrame w hdr dst src len payload crc).length = 9 + payload.length := by
  simp only [standardFrame, standardBody, List.length_append, List.length_cons, List.length_nil, length_serial16]
  omega

/-- A Compatible frame has 6 bytes beside its payload (30_encoding.md R63). -/
@[simp] theorem length_compatibleFrame (w : Wire) (hdr : Byte) (dst : Addr) (len : Byte) (payload : List Byte)
    (trl : Byte) : (compatibleFrame w hdr dst len payload trl).length = 6 + payload.length := by
  simp only [compatibleFrame, compatibleBody, List.length_append, List.length_cons, List.length_nil, length_serial16]
  omega

/-- An encoding that succeeds is the frame of a payload that fits. -/
theorem encodeFrame_eq_ok_iff {cfg : Config} {cat : Category} {var : Variant} {pri : Priority} {dst : Addr}
    {payload f : List Byte} : encodeFrame cfg cat var pri dst payload = .ok f ↔
      payload.length ≤ maxPayload ∧ f = frameBytes cfg cat var pri dst payload := by
  obtain ⟨hlong, herr⟩ | ⟨hfit, hok⟩ := encodeFrame_cases cfg cat var pri dst payload
  · simp [herr, Nat.not_le.mpr hlong]
  · simp [hok, hfit, eq_comm]

/-! ### The obligations -/

/-- Settles O14: `exec_encode_of_lt` and `exec_encode_of_le`; under the default constants the header byte is the number
of `headerByte_defaultWire`, and the layouts of R62 and R63 are the lists of the statement. -/
theorem encodeWritesTheFrameOrRaisesPayloadTooLarge : Obligations.EncodeWritesTheFrameOrRaisesPayloadTooLarge := by
  unfold Obligations.EncodeWritesTheFrameOrRaisesPayloadTooLarge
  intro s cat var pri dst payload hwire
  refine ⟨fun hlong => exec_encode_of_lt hlong cat var pri dst s, fun hfit => ?_⟩
  rw [exec_encode_of_le hfit]
  cases var with
  | standard =>
    simp only [frameBytes, hwire, headerByte_defaultWire]
    rfl
  | compatible =>
    simp only [frameBytes, hwire, headerByte_defaultWire]
    rfl

/-- Settles O15: an encoding is a frame (`encodeFrame_eq_ok_iff`), 9 or 6 bytes around a payload of at most 56. -/
theorem encodedFrameLength : Obligations.EncodedFrameLength := by
  unfold Obligations.EncodedFrameLength
  intro cfg cat pri dst payload f
  simp only [encodeFrame_eq_ok_iff, maxPayload]
  constructor
  · rintro ⟨hfit, rfl⟩
    simp only [frameBytes, length_standardFrame, true_and]
    omega
  · rintro ⟨hfit, rfl⟩
    simp only [frameBytes, length_compatibleFrame, true_and]
    omega

/-- Settles O16: by `exec_encodei` both operations are one ENCODE, which answers and does nothing else. -/
theorem encodeiIsEncodeWithTheClassifiedPriority : Obligations.EncodeiIsEncodeWithTheClassifiedPriority := by
  unfold Obligations.EncodeiIsEncodeWithTheClassifiedPriority
  intro s cat var kind dst payload pri
  have hpri : pri = classOf s.cfg.classTable kind := by cases kind <;> rfl
  obtain ⟨r, hr⟩ := exists_exec_encode_eq_answer cat var pri dst payload s
  refine ⟨r, ?_, hr⟩
  rw [exec_encodei, ← hpri]
  exact hr

end Sys2Proof.Machine
end

section
/-!
SUPPORT. Proofs about 43_assembler.md: the marker search (R124), PROCESS as its loop (R120), the round trip of one frame
(R135) and fragmentation (R136). The fuel of the scan is removed once, by the relation `ScanEnds`; what appending bytes
does to a scan (`ScanEnds.append_of_isSome`, `ScanEnds.append_of_none`) is then shown by induction over it.
-/

namespace Sys2Proof.Machine

section

variable {w : Wire} {buf bytes more : List Byte} {pos i n : Nat}

/-! ### The marker search -/

theorem FirstMarker.lt_length (h : FirstMarker w buf pos i) : i < buf.length :=
  (List.getElem?_eq_some_iff.mp h.marker).1

theorem FirstMarker.unique {j : Nat} (hi : FirstMarker w buf pos i) (hj : FirstMarker w buf pos j) : i = j := by
  obtain hlt | heq | hgt := Nat.lt_trichotomy i j
  · exact absurd hi.marker (hj.least i hi.from_pos hlt)
  · exact heq
  · exact absurd hj.marker (hi.least j hj.from_pos hgt)

theorem FirstMarker.append (h : FirstMarker w buf pos i) : FirstMarker w (buf ++ more) pos i where
  from_pos := h.from_pos
  marker := by rw [List.getElem?_append_left h.lt_length, h.marker]
  least j hpos hj := by
    rw [List.getElem?_append_left (hj.trans h.lt_length)]
    exact h.least j hpos hj

theorem FirstMarker.of_memDrop (h : FirstMarker w (memDrop buf n) pos i) : FirstMarker w buf (n + pos) (n + i) where
  from_pos := Nat.add_le_add_left h.from_pos n
  marker := by rw [← List.getElem?_drop]; exact h.marker
  least j hpos hj := by
    obtain ⟨k, rfl⟩ : ∃ k, j = n + k := ⟨j - n, by omega⟩
    rw [← List.getElem?_drop]
    exact h.least k (by omega) (by omega)

theorem findMarker_eq_none_iff : findMarker w buf pos = none ↔ ∀ i, pos ≤ i → buf[i]? ≠ some w.sof := by
  have hmem : findMarker w buf pos = none ↔ w.sof ∉ buf.drop pos := by
    simp only [findMarker, Option.map_eq_none_iff, List.findIdx?_eq_none_iff, beq_eq_false_iff_ne]
    exact ⟨fun h hin => h _ hin rfl, fun h b hb hsof => h (hsof ▸ hb)⟩
  rw [hmem, List.mem_iff_getElem?, not_exists]
  simp only [List.getElem?_drop]
  constructor
  · intro h i hi
    have := h (i - pos)
    rwa [Nat.add_sub_cancel' hi] at this
  · exact fun h k => h (pos + k) (Nat.le_add_right pos k)

theorem firstMarker_of_findMarker (h : findMarker w buf pos = some i) : FirstMarker w buf pos i := by
  obtain ⟨k, hk, rfl⟩ := Option.map_eq_some_iff.mp h
  obtain ⟨hlt, hsof, hleast⟩ := List.findIdx?_eq_some_iff_getElem.mp hk
  have hfirst : FirstMarker w (memDrop buf pos) 0 k := by
    refine ⟨Nat.zero_le k, ?_, fun j _ hj => ?_⟩
    · rw [memDrop, List.getElem?_eq_getElem hlt, eq_of_beq hsof]
    · rw [memDrop, List.getElem?_eq_getElem (hj.trans hlt), ne_eq, Option.some_inj]
      simpa using hleast j hj
  exact hfirst.of_memDrop

theorem findMarker_eq_some_iff : findMarker w buf pos = some i ↔ FirstMarker w buf pos i := by
  refine ⟨firstMarker_of_findMarker, fun hi => ?_⟩
  cases hf : findMarker w buf pos with
  | none => exact absurd hi.marker (findMarker_eq_none_iff.mp hf i hi.from_pos)
  | some j => rw [hi.unique (firstMarker_of_findMarker hf)]

/-! ### The judgement looks at the bytes from its marker on -/

theorem byteAt_memDrop (buf : List Byte) (n i : Nat) : byteAt (memDrop buf n) i = byteAt buf (n + i) := by
  simp [byteAt, memDrop, List.getD_eq_getElem?_getD]

theorem slice_memDrop (buf : List Byte) (n a b : Nat) : slice (memDrop buf n) a b = slice buf (n + a) (n + b) := by
  rw [slice, slice, memDrop, List.drop_drop, Nat.add_sub_add_left]

theorem integrityOk_memDrop (w : Wire) (var : Variant) (buf : List Byte) (n p e : Nat) :
    integrityOk w var (memDrop buf n) p e = integrityOk w var buf (n + p) (n + e) := by
  cases var <;> simp only [integrityOk, byteAt_memDrop, slice_memDrop, Nat.add_assoc]

theorem decodedAt_memDrop (w : Wire) (cat : Category) (var : Variant) (pri : Priority) (buf : List Byte) (n p e : Nat) :
    decodedAt w cat var pri (memDrop buf n) p e = decodedAt w cat var pri buf (n + p) (n + e) := by
  cases var <;> simp only [decodedAt, byteAt_memDrop, slice_memDrop, Nat.add_assoc]

/-- Bytes before a candidate do not count (43_assembler.md R123). -/
theorem judge_memDrop (w : Wire) (buf : List Byte) (n p : Nat) : judge w (memDrop buf n) p = judge w buf (n + p) := by
  have hlen (var : Variant) : n + (p + headLength var - 1) = n + p + headLength var - 1 := by cases var <;> rfl
  simp only [judge, byteAt_memDrop, integrityOk_memDrop, decodedAt_memDrop, length_memDrop, hlen, Nat.sub_sub,
    Nat.add_assoc]

theorem byteAt_append (h : i < buf.length) : byteAt (buf ++ more) i = byteAt buf i :=
  List.getD_append _ _ _ _ h

theorem slice_append {a b : Nat} (h : b ≤ buf.length) : slice (buf ++ more) a b = slice buf a b := by
  rw [slice, slice]
  by_cases hab : a ≤ b
  · rw [List.drop_append_of_le_length (hab.trans h), List.take_append_of_le_length (by simp only [List.length_drop]; omega)]
  · rw [Nat.sub_eq_zero_of_le (Nat.le_of_not_le hab), List.take_zero, List.take_zero]

theorem integrityOk_append {var : Variant} {p e : Nat} (h : e + trailerLength var ≤ buf.length) :
    integrityOk w var (buf ++ more) p e = integrityOk w var buf p e := by
  cases var with
  | standard =>
    simp only [trailerLength] at h
    simp only [integrityOk, slice_append (show e ≤ buf.length by omega), byteAt_append (show e < buf.length by omega),
      byteAt_append (show e + 1 < buf.length by omega)]
  | compatible =>
    simp only [trailerLength] at h
    simp only [integrityOk, slice_append (show e ≤ buf.length by omega), byteAt_append (show e < buf.length by omega)]

theorem decodedAt_append {var : Variant} {p e : Nat} (cat : Category) (pri : Priority)
    (hhead : p + headLength var ≤ buf.length) (hend : e ≤ buf.length) :
    decodedAt w cat var pri (buf ++ more) p e = decodedAt w cat var pri buf p e := by
  cases var with
  | standard =>
    simp only [headLength] at hhead
    simp only [decodedAt, slice_append hend, byteAt_append (show p + 2 < buf.length by omega),
      byteAt_append (show p + 3 < buf.length by omega), byteAt_append (show p + 4 < buf.length by omega),
      byteAt_append (show p + 5 < buf.length by omega)]
  | compatible =>
    simp only [headLength] at hhead
    simp only [decodedAt, slice_append hend, byteAt_append (show p + 2 < buf.length by omega),
      byteAt_append (show p + 3 < buf.length by omega)]

/-- Appending bytes never changes a decided verdict (43_assembler.md R123, last paragraph). -/
theorem judge_append {p : Nat} (h : judge w buf p ≠ .incomplete) : judge w (buf ++ more) p = judge w buf p := by
  have grow {k : Nat} (hk : ¬ buf.length - p < k) : ¬ (buf ++ more).length - p < k := by
    rw [List.length_append]; omega
  by_cases h2 : buf.length - p < 2
  · exact absurd (by simp only [judge, h2, if_true]) h
  simp only [judge, h2, grow h2, if_false, byteAt_append (show p + 1 < buf.length by omega)] at h ⊢
  cases hcat : catOf w (headerCat w.hdr (byteAt buf (p + 1))) with
  | none => rfl
  | some cat =>
    simp only [hcat] at h ⊢
    generalize hvar : varOf w (headerVar w.hdr (byteAt buf (p + 1))) = var at h ⊢
    have hhead : 0 < headLength var := by cases var <;> decide
    by_cases hH : buf.length - p < headLength var
    · exact absurd (if_pos hH) h
    simp only [hH, grow hH, if_false, byteAt_append (show p + headLength var - 1 < buf.length by omega)] at h ⊢
    generalize (byteAt buf (p + headLength var - 1)).toNat = l at h ⊢
    by_cases hl : l > maxPayload
    · simp only [hl, if_true]
    simp only [hl, if_false] at h ⊢
    by_cases hT : buf.length - p < headLength var + l + trailerLength var
    · exact absurd (if_pos hT) h
    simp only [hT, grow hT, if_false]
    rw [integrityOk_append (by omega), decodedAt_append _ _ (by omega) (by omega)]

/-! ### The scan without fuel -/

/-- A scan of `buf` from position `pos` ends with `message` and keeps `kept`: the loop of 43_assembler.md R120 as a
relation. -/
inductive ScanEnds (w : Wire) (buf : List Byte) : Nat → Option Decoded → List Byte → Prop
  | unmarked {pos : Nat} : (∀ i, pos ≤ i → buf[i]? ≠ some w.sof) → ScanEnds w buf pos none (memDrop buf pos)
  | waiting {pos i : Nat} : FirstMarker w buf pos i → judge w buf i = .incomplete →
      ScanEnds w buf pos none (memDrop buf i)
  | accepted {pos i total : Nat} {d : Decoded} : FirstMarker w buf pos i → judge w buf i = .accept d total →
      ScanEnds w buf pos (some d) (memDrop buf (i + total))
  | resumed {pos i : Nat} {reason : Failure} {message : Option Decoded} {kept : List Byte} :
      FirstMarker w buf pos i → judge w buf i = .reject reason → ScanEnds w buf (i + 1) message kept →
      ScanEnds w buf pos message kept

variable {message : Option Decoded} {kept : List Byte}

/-- Fuel above the number of bytes left to scan does not run out (43_assembler.md R127). -/
theorem scanEnds_scan {fuel : Nat} (h : buf.length - pos < fuel) :
    ScanEnds w buf pos (scan w buf fuel pos).1 (scan w buf fuel pos).2 := by
  induction fuel generalizing pos with
  | zero => omega
  | succ fuel ih =>
    obtain ⟨hf, hs⟩ | ⟨i, hf, hcase⟩ := scan_succ_cases w buf fuel pos
    · rw [hs]
      exact .unmarked (findMarker_eq_none_iff.mp hf)
    have hi := firstMarker_of_findMarker hf
    obtain ⟨hj, hs⟩ | ⟨reason, hj, hs⟩ | ⟨d, total, hj, hs⟩ := hcase
    · rw [hs]
      exact .waiting hi hj
    · rw [hs]
      have hpos := hi.from_pos
      have hlt := hi.lt_length
      exact .resumed hi hj (ih (by omega))
    · rw [hs]
      exact .accepted hi hj

theorem ScanEnds.scan_eq {fuel : Nat} (h : ScanEnds w buf pos message kept) (hfuel : buf.length - pos < fuel) :
    scan w buf fuel pos = (message, kept) := by
  obtain ⟨fuel, rfl⟩ : ∃ k, fuel = k + 1 := ⟨fuel - 1, by omega⟩
  induction h generalizing fuel with
  | unmarked hnone => simp only [scan, findMarker_eq_none_iff.mpr hnone]
  | waiting hi hj | accepted hi hj => simp only [scan, findMarker_eq_some_iff.mpr hi, hj]
  | resumed hi hj _ ih =>
    have hpos := hi.from_pos
    have hlt := hi.lt_length
    obtain ⟨fuel, rfl⟩ : ∃ k, fuel = k + 1 := ⟨fuel - 1, by omega⟩
    simpa only [scan, findMarker_eq_some_iff.mpr hi, hj] using ih fuel (by omega)

theorem ScanEnds.unique {message' : Option Decoded} {kept' : List Byte} (h : ScanEnds w buf pos message kept)
    (h' : ScanEnds w buf pos message' kept') : message' = message ∧ kept' = kept := by
  have hfuel := Nat.lt_succ_self (buf.length - pos)
  exact Prod.mk.inj ((h'.scan_eq hfuel).symm.trans (h.scan_eq hfuel))

theorem ScanEnds.of_memDrop (h : ScanEnds w (memDrop buf n) pos message kept) : ScanEnds w buf (n + pos) message kept := by
  have hdrop (k : Nat) : memDrop (memDrop buf n) k = memDrop buf (n + k) := List.drop_drop
  induction h with
  | @unmarked pos hnone =>
    rw [hdrop]
    refine .unmarked fun i hi hsof => hnone (i - n) (by omega) ?_
    rwa [memDrop, List.getElem?_drop, Nat.add_sub_cancel' (by omega)]
  | waiting hi hj =>
    rw [hdrop]
    exact .waiting hi.of_memDrop (by rwa [judge_memDrop] at hj)
  | accepted hi hj =>
    rw [hdrop, ← Nat.add_assoc]
    exact .accepted hi.of_memDrop (by rwa [judge_memDrop] at hj)
  | resumed hi hj _ ih => exact .resumed hi.of_memDrop (by rwa [judge_memDrop] at hj) ih

/-- A scan may begin at its first marker. -/
theorem ScanEnds.of_firstMarker (hi : FirstMarker w buf pos i) (h : ScanEnds w buf i message kept) :
    ScanEnds w buf pos message kept := by
  have hfrom {j : Nat} (hj : FirstMarker w buf i j) : FirstMarker w buf pos j := by
    have hself : FirstMarker w buf i i := ⟨le_rfl, hi.marker, fun k hk hlt => absurd hk (by omega)⟩
    rwa [hj.unique hself]
  cases h with
  | unmarked hnone => exact absurd hi.marker (hnone i le_rfl)
  | waiting hj hv => exact .waiting (hfrom hj) hv
  | accepted hj hv => exact .accepted (hfrom hj) hv
  | resumed hj hv hrest => exact .resumed (hfrom hj) hv hrest

/-- Bytes appended behind an accepted candidate are kept. -/
theorem ScanEnds.append_of_isSome (h : ScanEnds w buf pos message kept) (hsome : message.isSome = true) :
    ScanEnds w (buf ++ more) pos message (kept ++ more) := by
  induction h with
  | unmarked | waiting => cases hsome
  | accepted hi hj =>
    obtain ⟨-, -, hend⟩ := judge_accept_bounds hj
    rw [memDrop, ← List.drop_append_of_le_length hend]
    exact .accepted hi.append (by rw [judge_append (by simp [hj]), hj])
  | resumed hi hj _ ih => exact .resumed hi.append (by rw [judge_append (by simp [hj]), hj]) (ih hsome)

/-- A scan that found no message goes on, when bytes are appended, as a scan of what it kept and those bytes. -/
theorem ScanEnds.append_of_none {message' : Option Decoded} {kept' : List Byte} (h : ScanEnds w buf pos message kept)
    (hnone : message = none) (hpos : pos ≤ buf.length) (hrest : ScanEnds w (kept ++ more) 0 message' kept') :
    ScanEnds w (buf ++ more) pos message' kept' := by
  induction h with
  | unmarked =>
    rw [memDrop, ← List.drop_append_of_le_length hpos] at hrest
    exact ScanEnds.of_memDrop hrest
  | waiting hi =>
    rw [memDrop, ← List.drop_append_of_le_length hi.lt_length.le] at hrest
    exact ScanEnds.of_firstMarker hi.append (ScanEnds.of_memDrop hrest)
  | accepted => cases hnone
  | resumed hi hj _ ih =>
    exact .resumed hi.append (by rw [judge_append (by simp [hj]), hj]) (ih hnone hi.lt_length hrest)

/-- A reception refuses the bytes whole or is a scan from position 0 (43_assembler.md R120, R121). -/
theorem assemble_ends (cfg : Config) (buf bytes : List Byte) :
    (cfg.cap < buf.length + bytes.length ∧ assemble cfg buf bytes = (.err .bufferFull, buf)) ∨
    ∃ message kept, buf.length + bytes.length ≤ cfg.cap ∧ ScanEnds cfg.wire (buf ++ bytes) 0 message kept ∧
      assemble cfg buf bytes = (scanResult message, kept) := by
  obtain hfull | ⟨hfit, hscan⟩ := assemble_cases cfg buf bytes
  · exact .inl hfull
  · exact .inr ⟨_, _, hfit, scanEnds_scan (by omega), hscan⟩

/-- What a reception gives when the bytes fit and their scan is known. -/
theorem assemble_of_scanEnds {cfg : Config} (hfit : buf.length + bytes.length ≤ cfg.cap)
    (h : ScanEnds cfg.wire (buf ++ bytes) 0 message kept) : assemble cfg buf bytes = (scanResult message, kept) := by
  obtain ⟨hfull, -⟩ | ⟨message', kept', -, hends, hscan⟩ := assemble_ends cfg buf bytes
  · omega
  · obtain ⟨rfl, rfl⟩ := h.unique hends
    exact hscan

/-! ### PROCESS -/

/-- PROCESS hands back the result of a reception and keeps its buffer. -/
theorem exec_process (bytes : List Byte) (s : State) :
    exec (.process bytes) s =
      .next { s with buf := (assemble s.cfg s.buf bytes).2, response := some (assemble s.cfg s.buf bytes).1 } := rfl

/-- What a scan reached from position 0 ends with is what the rule allows. -/
theorem ScanEnds.received {s : State} (hfit : s.buf.length + bytes.length ≤ s.cfg.cap)
    (h : ScanEnds s.cfg.wire (s.buf ++ bytes) pos message kept) (hreach : ScanReaches s.cfg.wire (s.buf ++ bytes) pos) :
    Received s bytes { s with buf := kept, response := some (scanResult message) } := by
  induction h with
  | unmarked hnone => exact .unmarked _ hfit hreach hnone
  | waiting hi hj => exact .waiting _ _ hfit hreach hi hj
  | accepted hi hj => exact .accepted _ _ _ _ hfit hreach hi hj
  | resumed hi hj _ ih => exact ih (hreach.resume hi (by rw [hj]; rfl))

/-! ### Draining -/

/-- Scanning `buf` over and over, each time what the scan before kept, yields `ds`, then nothing, and ends with
`last`. -/
inductive Drains (w : Wire) : List Byte → List Decoded → List Byte → Prop
  | done {buf last : List Byte} : ScanEnds w buf 0 none last → Drains w buf [] last
  | yield {buf kept last : List Byte} {d : Decoded} {ds : List Decoded} : ScanEnds w buf 0 (some d) kept →
      Drains w kept ds last → Drains w buf (d :: ds) last

theorem Drains.unique {ds ds' : List Decoded} {last last' : List Byte} (h : Drains w buf ds last)
    (h' : Drains w buf ds' last') : ds = ds' ∧ last = last' := by
  induction h generalizing ds' with
  | done hends =>
    cases h' with
    | done hends' => exact ⟨rfl, (hends'.unique hends).2⟩
    | yield hends' => exact absurd (hends'.unique hends).1 nofun
  | yield hends _ ih =>
    cases h' with
    | done hends' => exact absurd (hends'.unique hends).1 nofun
    | yield hends' hrest =>
      obtain ⟨hd, rfl⟩ := hends'.unique hends
      obtain ⟨rfl, rfl⟩ := ih hrest
      exact ⟨by rw [Option.some_inj.mp hd], rfl⟩

/-- Bytes a scan without a message passed over do not count. -/
theorem Drains.of_scanEnds_none {ds : List Decoded} {last : List Byte} (hends : ScanEnds w buf 0 none kept)
    (h : Drains w (kept ++ more) ds last) : Drains w (buf ++ more) ds last := by
  cases h with
  | done hrest => exact .done (hends.append_of_none rfl (Nat.zero_le _) hrest)
  | yield hrest htail => exact .yield (hends.append_of_none rfl (Nat.zero_le _) hrest) htail

/-- One operation more in a run. -/
theorem feed_cons (cfg : Config) (buf piece : List Byte) (pieces : List (List Byte)) :
    feed cfg buf (piece :: pieces) =
      ((assemble cfg buf piece).1 :: (feed cfg (assemble cfg buf piece).2 pieces).1,
        (feed cfg (assemble cfg buf piece).2 pieces).2) := rfl

theorem getLast?_cons_feed_cons (r : Result) (cfg : Config) (buf piece : List Byte) (pieces : List (List Byte)) :
    (r :: (feed cfg buf (piece :: pieces)).1).getLast? = (feed cfg buf (piece :: pieces)).1.getLast? := by
  rw [feed_cons, List.getLast?_cons_cons]

/-- A run of PROCESS that raises no BufferFull and ends with `None` drains the whole stream, however it is cut. -/
theorem drains_feed {cfg : Config} {buf : List Byte} {pieces : List (List Byte)}
    (hfull : .err .bufferFull ∉ (feed cfg buf pieces).1) (hlast : (feed cfg buf pieces).1.getLast? = some .noMessage) :
    Drains cfg.wire (buf ++ pieces.flatten) (messages (feed cfg buf pieces).1) (feed cfg buf pieces).2 := by
  induction pieces generalizing buf with
  | nil => cases hlast
  | cons piece pieces ih =>
    rw [feed_cons] at hfull hlast ⊢
    rw [List.flatten_cons, ← List.append_assoc]
    obtain ⟨-, ha⟩ | ⟨message, kept, -, hends, ha⟩ := assemble_ends cfg buf piece
    · simp [ha] at hfull
    simp only [ha, List.mem_cons, not_or] at hfull hlast ⊢
    cases message with
    | none =>
      cases pieces with
      | nil =>
        rw [List.flatten_nil, List.append_nil]
        exact .done hends
      | cons piece' pieces =>
        rw [getLast?_cons_feed_cons] at hlast
        exact .of_scanEnds_none hends (ih hfull.2 hlast)
    | some d =>
      cases pieces with
      | nil => cases hlast
      | cons piece' pieces =>
        rw [getLast?_cons_feed_cons] at hlast
        exact .yield (hends.append_of_isSome rfl) (ih hfull.2 hlast)

/-! ### Frames are read back -/

theorem toNat_lengthByte {payload : List Byte} (h : payload.length ≤ maxPayload) :
    (lengthByte payload).toNat = payload.length := by
  simp only [maxPayload] at h
  rw [lengthByte, BitVec.toNat_ofNat, Nat.mod_eq_of_lt (by omega)]

/-- A slice by what stands before and after it. -/
theorem slice_of_eq_append {front middle back : List Byte} {a e : Nat} (hbuf : buf = front ++ middle ++ back)
    (ha : front.length = a) (he : a + middle.length = e) : slice buf a e = middle := by
  subst hbuf ha he
  simp [slice]

/-- A byte by what stands before and after it. -/
theorem byteAt_of_eq_append {front back : List Byte} {b : Byte} (hbuf : buf = front ++ b :: back)
    (hi : front.length = i) : byteAt buf i = b := by
  subst hbuf hi
  simp [byteAt]

/-- What the judgement reads from a Standard frame (30_encoding.md R62): header byte, length byte, integrity test and
fields. -/
theorem standardFrame_readBack (w : Wire) (cat : Category) (pri : Priority) (hdr : Byte) (dst src : Addr) (len : Byte)
    (payload : List Byte) (crc : BitVec 16) (rest : List Byte) :
    let f := standardFrame w hdr dst src len payload crc ++ rest
    byteAt f 1 = hdr ∧ byteAt f 6 = len ∧
    integrityOk w .standard f 0 (7 + payload.length) = (crc16 w (standardBody w hdr dst src len payload) == crc) ∧
    decodedAt w cat .standard pri f 0 (7 + payload.length) =
      { category := cat, variant := .standard, priority := pri, dst := dst, src := some src, payload := payload } := by
  intro f
  obtain ⟨d1, d2, hd, rfl⟩ := serial16_eq w dst
  obtain ⟨s1, s2, hs, rfl⟩ := serial16_eq w src
  obtain ⟨c1, c2, hc, rfl⟩ := serial16_eq w crc
  have hf : f = [w.sof] ++ standardBody w hdr (read16 w d1 d2) (read16 w s1 s2) len payload ++ c1 :: c2 :: rest := by
    simp only [f, standardFrame, hc, List.append_assoc, List.cons_append, List.nil_append]
  have hcons : f = [w.sof, hdr, d1, d2, s1, s2, len] ++ payload ++ c1 :: c2 :: rest := by
    rw [hf, standardBody, hd, hs]
    rfl
  have hbody := slice_of_eq_append (a := 0 + 1) (e := 7 + payload.length) hf rfl (by simp [standardBody]; omega)
  have hpayload : slice f (0 + 7) (7 + payload.length) = payload := slice_of_eq_append hcons rfl (by omega)
  have hc1 : byteAt f (7 + payload.length) = c1 := byteAt_of_eq_append hcons (by simp; omega)
  have hc2 : byteAt f (7 + payload.length + 1) = c2 :=
    byteAt_of_eq_append (front := [w.sof, hdr, d1, d2, s1, s2, len] ++ payload ++ [c1]) (back := rest)
      (by rw [hcons, List.append_assoc _ [c1]]; rfl) (by simp; omega)
  refine ⟨by rw [hcons]; rfl, by rw [hcons]; rfl, ?_, ?_⟩
  · simp only [integrityOk, hbody, hc1, hc2]
  · simp only [decodedAt, headLength, hpayload]
    rw [hcons]
    rfl

/-- What the judgement reads from a Compatible frame (30_encoding.md R63): header byte, length byte, integrity test and
fields. -/
theorem compatibleFrame_readBack (w : Wire) (cat : Category) (pri : Priority) (hdr : Byte) (dst : Addr) (len : Byte)
    (payload : List Byte) (trl : Byte) (rest : List Byte) :
    let f := compatibleFrame w hdr dst len payload trl ++ rest
    byteAt f 1 = hdr ∧ byteAt f 4 = len ∧
    integrityOk w .compatible f 0 (5 + payload.length) = (narrowTrailer w (compatibleBody w hdr dst len payload) == trl) ∧
    decodedAt w cat .compatible pri f 0 (5 + payload.length) =
      { category := cat, variant := .compatible, priority := pri, dst := dst, src := none, payload := payload } := by
  intro f
  obtain ⟨d1, d2, hd, rfl⟩ := serial16_eq w dst
  have hf : f = [w.sof] ++ compatibleBody w hdr (read16 w d1 d2) len payload ++ trl :: rest := by
    simp only [f, compatibleFrame, List.append_assoc, List.cons_append, List.nil_append]
  have hcons : f = [w.sof, hdr, d1, d2, len] ++ payload ++ trl :: rest := by
    rw [hf, compatibleBody, hd]
    rfl
  have hbody := slice_of_eq_append (a := 0 + 1) (e := 5 + payload.length) hf rfl (by simp [compatibleBody]; omega)
  have hpayload : slice f (0 + 5) (5 + payload.length) = payload := slice_of_eq_append hcons rfl (by omega)
  have htrl : byteAt f (5 + payload.length) = trl := byteAt_of_eq_append hcons (by simp; omega)
  refine ⟨by rw [hcons]; rfl, by rw [hcons]; rfl, ?_, ?_⟩
  · simp only [integrityOk, hbody, htrl]
  · simp only [decodedAt, headLength, hpayload]
    rw [hcons]
    rfl

/-- The header byte of a message gives back its category, variant and priority. -/
theorem messageHeader_fields (hwf : wireWf w = true) (d : Decoded) (rsv : Bool) :
    catOf w (headerCat w.hdr (messageHeader w d rsv)) = some d.category ∧
    varOf w (headerVar w.hdr (messageHeader w d rsv)) = d.variant ∧
    priOf w (headerPri w.hdr (messageHeader w d rsv)) = d.priority := by
  obtain ⟨hcat, hvar, hpri⟩ :=
    header_fields ((wireWf_iff w).mp hwf).1 (catCode w d.category) (varCode w d.variant) (priCode w d.priority) rsv
  rw [messageHeader, hcat, hvar, hpri]
  exact ⟨catOf_catCode hwf _, varOf_varCode hwf _, priOf_priCode hwf _⟩

/-- The frame of a message is judged as that message, whatever follows it (43_assembler.md R123). -/
theorem judge_messageFrame (hwf : wireWf w = true) {d : Decoded} (hd : d.wf = true) (rsv : Bool) (rest : List Byte) :
    judge w (messageFrame w d rsv ++ rest) 0 = .accept d (messageFrame w d rsv).length := by
  obtain ⟨hfit, hsrc⟩ : d.payload.length ≤ maxPayload ∧ d.src.isSome = (d.variant == .standard) := by
    simpa [Decoded.wf] using hd
  obtain ⟨hcat, hvar, hpri⟩ := messageHeader_fields hwf d rsv
  have hlen := toNat_lengthByte hfit
  obtain ⟨category, variant, priority, dst, src, payload⟩ := d
  dsimp only at hfit hsrc hcat hvar hpri hlen
  generalize hhdr : messageHeader w _ rsv = hdr at hcat hvar hpri
  cases variant with
  | standard =>
    obtain ⟨src, rfl⟩ := Option.isSome_iff_exists.mp hsrc
    simp only [messageFrame, hhdr, Option.getD_some]
    obtain ⟨hh, hl, hok, hdec⟩ := standardFrame_readBack w category priority hdr dst src (lengthByte payload) payload
      (crc16 w (standardBody w hdr dst src (lengthByte payload) payload)) rest
    rw [judge_complete hh hcat hvar hl (by omega) (by simp [headLength, trailerLength, hlen]; omega), hpri, hlen]
    simp only [headLength, trailerLength, Nat.zero_add, hok, hdec, beq_self_eq_true, if_true, length_standardFrame]
    congr 1
    omega
  | compatible =>
    obtain rfl : src = none := Option.not_isSome_iff_eq_none.mp (by rw [hsrc]; decide)
    simp only [messageFrame, hhdr]
    obtain ⟨hh, hl, hok, hdec⟩ := compatibleFrame_readBack w category priority hdr dst (lengthByte payload) payload
      (narrowTrailer w (compatibleBody w hdr dst (lengthByte payload) payload)) rest
    rw [judge_complete hh hcat hvar hl (by omega) (by simp [headLength, trailerLength, hlen]; omega), hpri, hlen]
    simp only [headLength, trailerLength, Nat.zero_add, hok, hdec, beq_self_eq_true, if_true, length_compatibleFrame]
    congr 1
    omega

theorem firstMarker_messageFrame (w : Wire) (d : Decoded) (rsv : Bool) (rest : List Byte) :
    FirstMarker w (messageFrame w d rsv ++ rest) 0 0 where
  from_pos := le_rfl
  marker := by
    rw [messageFrame]
    cases d.variant <;> rfl
  least j _ hj := absurd hj (Nat.not_lt_zero j)

/-- A scan that begins at the frame of a message yields the message and keeps what follows. -/
theorem scanEnds_messageFrame (hwf : wireWf w = true) {d : Decoded} (hd : d.wf = true) (rsv : Bool) (rest : List Byte) :
    ScanEnds w (messageFrame w d rsv ++ rest) 0 (some d) rest := by
  have hends := ScanEnds.accepted (firstMarker_messageFrame w d rsv rest) (judge_messageFrame hwf hd rsv rest)
  rwa [Nat.zero_add, memDrop, List.drop_left] at hends

/-- The message whose frame ENCODE writes (43_assembler.md R135): the source address stands in the Standard variant
alone. -/
def encodedMessage (cfg : Config) (cat : Category) (var : Variant) (pri : Priority) (dst : Addr) (payload : List Byte) :
    Decoded where
  category := cat
  variant := var
  priority := pri
  dst := dst
  src := match var with
    | .standard => some cfg.localAddr
    | .compatible => none
  payload := payload

theorem frameBytes_eq_messageFrame (cfg : Config) (cat : Category) (var : Variant) (pri : Priority) (dst : Addr)
    (payload : List Byte) :
    frameBytes cfg cat var pri dst payload = messageFrame cfg.wire (encodedMessage cfg cat var pri dst payload) false := by
  cases var <;> rfl

theorem encodedMessage_wf {payload : List Byte} (hfit : payload.length ≤ maxPayload) (cfg : Config) (cat : Category)
    (var : Variant) (pri : Priority) (dst : Addr) : (encodedMessage cfg cat var pri dst payload).wf = true := by
  cases var <;> simp only [Decoded.wf, encodedMessage, hfit, decide_true, Bool.true_and] <;> rfl

/-- An encoded frame received into an empty buffer gives its message and leaves nothing. -/
theorem assemble_encodeFrame {cfg : Config} {cat : Category} {var : Variant} {pri : Priority} {dst : Addr}
    {payload f : List Byte} (hwf : wireWf cfg.wire = true) (henc : encodeFrame cfg cat var pri dst payload = .ok f)
    (hcap : f.length ≤ cfg.cap) :
    assemble cfg [] f = (.message (encodedMessage cfg cat var pri dst payload), []) := by
  obtain ⟨hfit, rfl⟩ := encodeFrame_eq_ok_iff.mp henc
  rw [frameBytes_eq_messageFrame] at hcap ⊢
  have hends := scanEnds_messageFrame hwf (encodedMessage_wf hfit cfg cat var pri dst) false []
  rw [List.append_nil] at hends
  exact assemble_of_scanEnds (buf := []) (by rwa [List.length_nil, Nat.zero_add]) hends

end

/-! ### The obligations -/

/-- Settles O33: `assemble_encodeFrame`, which PROCESS and DECODE both are. -/
theorem encodedFramesDecodeToWhatWasEncoded : Obligations.EncodedFramesDecodeToWhatWasEncoded := by
  unfold Obligations.EncodedFramesDecodeToWhatWasEncoded
  intro s cat var pri dst payload f hwf hbuf henc hcap d
  have hd : d = encodedMessage s.cfg cat var pri dst payload := by cases var <;> rfl
  have ha := assemble_encodeFrame hwf henc hcap
  rw [exec_process, hbuf, decodeBytes, ha, hd]
  exact ⟨rfl, rfl⟩

/-- Settles O19: `findMarker_eq_some_iff` and `findMarker_eq_none_iff`. -/
theorem findMarkerIsTheFirstMarkerFromThePosition : Obligations.FindMarkerIsTheFirstMarkerFromThePosition := by
  unfold Obligations.FindMarkerIsTheFirstMarkerFromThePosition
  exact fun w buf pos => ⟨fun i => findMarker_eq_some_iff, findMarker_eq_none_iff⟩

/-- Settles O20: a reception refuses the bytes whole or is a scan from position 0 (`assemble_ends`), which ends as the
rule allows (`ScanEnds.received`). -/
theorem processFollowsTheScanLoop : Obligations.ProcessFollowsTheScanLoop := by
  unfold Obligations.ProcessFollowsTheScanLoop
  intro s newBytes
  refine ⟨_, exec_process newBytes s, ?_⟩
  obtain ⟨hfull, ha⟩ | ⟨message, kept, hfit, hends, ha⟩ := assemble_ends s.cfg s.buf newBytes
  · rw [ha]
    exact .full hfull
  · rw [ha]
    exact hends.received hfit .start

/-- Settles O34: either run drains the one stream (`drains_feed`), and draining has one outcome (`Drains.unique`). -/
theorem fragmentationDoesNotMatter : Obligations.FragmentationDoesNotMatter := by
  unfold Obligations.FragmentationDoesNotMatter
  intro cfg buf p q hstream hfullP hfullQ hlastP hlastQ
  have hp := drains_feed hfullP hlastP
  have hq := drains_feed hfullQ hlastQ
  rw [hstream] at hp
  exact hp.unique hq

end Sys2Proof.Machine
end

section
/-!
SUPPORT. Proofs about construction, 44_system.md R145.
-/

namespace Sys2Proof.Machine

theorem construct_of_lt {cfg : Config} (h : cfg.cap < maxWire) : construct cfg = .refused .capacityTooSmall :=
  if_pos h

theorem construct_of_le {cfg : Config} (h : maxWire ≤ cfg.cap) : construct cfg = .next (freshState cfg) :=
  if_neg h.not_gt

/-- Settles O1: `construct_of_le` and `construct_of_lt`, `maxWire` being 65. -/
theorem constructionGivesConfigurationAndEmptyBuffer : Obligations.ConstructionGivesConfigurationAndEmptyBuffer := by
  unfold Obligations.ConstructionGivesConfigurationAndEmptyBuffer
  intro cfg
  constructor
  · intro hcap
    exact ⟨freshState cfg, construct_of_le hcap, rfl, rfl, rfl⟩
  · intro hcap
    exact construct_of_lt hcap

end Sys2Proof.Machine
end

section
/-!
SUPPORT. Proofs about 60_exceptions.md: which operations raise which of the two errors, and when (R150 to R152).
-/

namespace Sys2Proof.Machine

/-! ### The two sources of errors -/

/-- The one error of an encoding is PayloadTooLarge, for a payload above 56 bytes (60_exceptions.md R151). -/
theorem answerEncoding_response_eq_err_iff {s : State} {cfg : Config} {cat : Category} {var : Variant} {pri : Priority}
    {dst : Addr} {payload : List Byte} {e : Error} :
    (answerEncoding s (encodeFrame cfg cat var pri dst payload)).response = some (.err e) ↔
      e = .payloadTooLarge ∧ maxPayload < payload.length := by
  obtain ⟨hlong, henc⟩ | ⟨hfit, henc⟩ := encodeFrame_cases cfg cat var pri dst payload
  · simp [henc, answerEncoding, hlong, eq_comm]
  · simp [henc, answerEncoding, Nat.not_lt.mpr hfit]

/-- The one error of a reception is BufferFull, for bytes that do not fit (60_exceptions.md R152). -/
theorem State.receive_response_eq_err_iff {s : State} {bytes : List Byte} {e : Error} :
    (s.receive bytes).response = some (.err e) ↔ e = .bufferFull ∧ s.cfg.cap < s.buf.length + bytes.length := by
  rw [State.receive_response]
  obtain ⟨hfull, ha⟩ | ⟨hfit, ha⟩ := assemble_cases s.cfg s.buf bytes
  · simp [ha, hfull, eq_comm]
  · cases hscan : (scanBuffer s.cfg.wire (s.buf ++ bytes)).1 <;> simp [ha, hscan, scanResult, Nat.not_lt.mpr hfit]

/-- Bytes that do not fit are refused whole: the error is all that differs (60_exceptions.md R152, R156). -/
theorem State.receive_of_lt {s : State} {bytes : List Byte} (hfull : s.cfg.cap < s.buf.length + bytes.length) :
    s.receive bytes = s.raise .bufferFull := by
  rw [State.receive, assemble, if_pos hfull]
  rfl

/-! ### The operations that raise them -/

/-- ENCODE raises PayloadTooLarge for a payload above 56 bytes and for no other. -/
theorem exec_encode_eq_raise_iff (s : State) (cat : Category) (var : Variant) (pri : Priority) (dst : Addr)
    (payload : List Byte) :
    exec (.encode cat var pri dst payload) s = .next (s.raise .payloadTooLarge) ↔ maxPayload < payload.length := by
  constructor
  · intro h
    have hraise := Host.Outcome.next.inj ((exec_encode cat var pri dst payload s).symm.trans h)
    exact (answerEncoding_response_eq_err_iff.mp (congrArg State.response hraise)).2
  · exact fun hlong => exec_encode_of_lt hlong cat var pri dst s

/-- An error is PayloadTooLarge, of ENCODE or ENCODEI, or BufferFull, of an operation that is neither pure nor RESET. -/
theorem exec_err_cases {i : Instr} {s t : State} {e : Error} (h : exec i s = .next t)
    (herr : t.response = some (.err e)) :
    (e = .payloadTooLarge ∧
      ((∃ c v p a b, i = .encode c v p a b) ∨ ∃ c v k a b, i = .encodei c v k a b)) ∨
    (e = .bufferFull ∧ isPure i = false ∧ i ≠ .reset) := by
  cases i with
  | reset | crc4 | crc16 | classify => cases h; cases herr
  | encode =>
    cases h
    exact .inl ⟨(answerEncoding_response_eq_err_iff.mp herr).1, .inl ⟨_, _, _, _, _, rfl⟩⟩
  | encodei =>
    cases h
    exact .inl ⟨(answerEncoding_response_eq_err_iff.mp herr).1, .inr ⟨_, _, _, _, _, rfl⟩⟩
  | reservedOp7 => cases h
  | process | frameCommandStandard | frameCommandCompatible | frameStatusStandard | frameStatusCompatible
  | frameCooperationStandard | frameCooperationCompatible | frameExtendedStandard | frameExtendedCompatible
  | frameReservedCat4to7 | frameReservedCat8to15 =>
    cases h
    exact .inr ⟨(State.receive_response_eq_err_iff.mp herr).1, rfl, nofun⟩

/-! ### The obligations -/

/-- Settles O17: `exec_encode_eq_raise_iff`, which is about ENCODEI too (`exec_encodei`), and `exec_err_cases` for every
other instruction. -/
theorem payloadTooLargeExactlyForLongPayloads : Obligations.PayloadTooLargeExactlyForLongPayloads := by
  unfold Obligations.PayloadTooLargeExactlyForLongPayloads
  refine ⟨fun s cat var pri kind dst payload => ⟨?_, ?_⟩, ?_, rfl⟩
  · exact (exec_encode_eq_raise_iff s cat var pri dst payload).symm
  · rw [exec_encodei]
    exact (exec_encode_eq_raise_iff s cat var _ dst payload).symm
  · intro i s t hencode hencodei h herr
    obtain ⟨-, ⟨c, v, p, a, b, hi⟩ | ⟨c, v, k, a, b, hi⟩⟩ | ⟨hfull, -⟩ := exec_err_cases h herr
    · exact hencode c v p a b hi
    · exact hencodei c v k a b hi
    · cases hfull

/-- Settles O29: PROCESS is a reception, which is refused exactly when its bytes do not fit
(`State.receive_response_eq_err_iff`) and then whole (`State.receive_of_lt`); `exec_err_cases` for the operations that
are none. -/
theorem bufferFullExactlyWhenTheBytesDoNotFit : Obligations.BufferFullExactlyWhenTheBytesDoNotFit := by
  unfold Obligations.BufferFullExactlyWhenTheBytesDoNotFit
  refine ⟨fun s t newBytes h => ?_, fun i s t hi h herr => ?_, rfl⟩
  · obtain rfl : s.receive newBytes = t := Host.Outcome.next.inj h
    have hiff : (s.receive newBytes).response = some (.err .bufferFull) ↔
        s.cfg.cap < s.buf.length + newBytes.length :=
      State.receive_response_eq_err_iff.trans (and_iff_right rfl)
    exact ⟨hiff, fun herr => State.receive_of_lt (hiff.mp herr)⟩
  · obtain ⟨htoo, -⟩ | ⟨-, himpure, hreset⟩ := exec_err_cases h herr
    · cases htoo
    · obtain hpure | rfl := hi
      · rw [himpure] at hpure
        cases hpure
      · exact hreset rfl

end Sys2Proof.Machine
end

section
/-!
SUPPORT. Proofs about the byte form of instructions (30_encoding.md sections 1 and 3, opcode_table.json): decoding gives
back what was encoded, and what decodes has no other form. Each part of the decoder has one lemma in either direction;
a frame row is handled through its category (`standardRow`, `compatibleRow`), never row by row.
-/

namespace Sys2Proof

/-! ### The header byte of the table -/

/-- The fields of a header byte, read where the decoder reads them. -/
theorem tableHeader_fields (cat : BitVec 4) (var : Variant) (pri : Priority) (rsv : Bool) :
    (tableHeader cat var pri rsv).getLsbD 7 = cat.getLsbD 3 ∧ (tableHeader cat var pri rsv).getLsbD 6 = cat.getLsbD 2 ∧
    (tableHeader cat var pri rsv).getLsbD 3 = variantBit var ∧ (tableHeader cat var pri rsv).getLsbD 0 = rsv ∧
    (tableHeader cat var pri rsv).extractLsb' 4 2 = cat.extractLsb' 0 2 ∧
    (tableHeader cat var pri rsv).extractLsb' 4 3 = cat.extractLsb' 0 3 ∧
    (tableHeader cat var pri rsv).extractLsb' 1 2 = priorityBits pri := by
  revert cat
  cases var <;> cases pri <;> cases rsv <;> decide

/-- The fields of the header byte of a row with a known category. -/
theorem tableHeader_known (cat : Category) (var : Variant) (pri : Priority) (rsv : Bool) :
    let h := tableHeader ((categoryBits cat).setWidth 4) var pri rsv
    h.getLsbD 7 = false ∧ h.getLsbD 6 = false ∧ h.getLsbD 3 = variantBit var ∧ h.getLsbD 0 = rsv ∧
    categoryOfBits (h.extractLsb' 4 2) = cat ∧ priorityOfBits (h.extractLsb' 1 2) = pri := by
  obtain ⟨h7, h6, h3, h0, hcat, -, hpri⟩ := tableHeader_fields ((categoryBits cat).setWidth 4) var pri rsv
  refine ⟨h7.trans ?_, h6.trans ?_, h3, h0, ?_, ?_⟩
  · cases cat <;> rfl
  · cases cat <;> rfl
  · rw [hcat]
    cases cat <;> rfl
  · rw [hpri, priorityOfBits_bits]

/-- A header byte is made up of its fields, whichever row it selects. -/
theorem tableHeader_of_fields : ∀ h : Byte,
    tableHeader (h.extractLsb' 4 4) (variantOfBit (h.getLsbD 3)) (priorityOfBits (h.extractLsb' 1 2)) (h.getLsbD 0) = h := by
  decide +kernel

theorem categoryBits_of_header : ∀ h : Byte, h.getLsbD 7 = false → h.getLsbD 6 = false →
    (categoryBits (categoryOfBits (h.extractLsb' 4 2))).setWidth 4 = h.extractLsb' 4 4 := by
  decide +kernel

/-- A header byte below `0x40` is made up of its category, variant, priority and reserved bit. -/
theorem tableHeader_of_known {h : Byte} {var : Variant} (h7 : h.getLsbD 7 = false) (h6 : h.getLsbD 6 = false)
    (h3 : h.getLsbD 3 = variantBit var) :
    tableHeader ((categoryBits (categoryOfBits (h.extractLsb' 4 2))).setWidth 4) var (priorityOfBits (h.extractLsb' 1 2))
      (h.getLsbD 0) = h := by
  have hall := tableHeader_of_fields h
  rwa [← categoryBits_of_header h h7 h6, h3, variantOfBit_bit] at hall

theorem reservedBits_of_header : ∀ h : Byte,
    (h.getLsbD 7 = true → (1 : BitVec 1) ++ h.extractLsb' 4 3 = h.extractLsb' 4 4) ∧
    (h.getLsbD 7 = false → h.getLsbD 6 = true → (1 : BitVec 2) ++ h.extractLsb' 4 2 = h.extractLsb' 4 4) := by
  decide +kernel

/-! ### Rows by their category -/

theorem encode_standardRow (cat : Category) (pri : Priority) (rsv : Bool) (dst src : Addr) (len : Byte)
    (payload : List Byte) (crc : BitVec 16) :
    encode (standardRow cat pri rsv dst src len payload crc) = encodeStandard cat pri rsv dst src len payload crc := by
  cases cat <;> rfl

theorem encode_compatibleRow (cat : Category) (pri : Priority) (rsv : Bool) (dst : Addr) (len : Byte)
    (payload : List Byte) (trl : Byte) :
    encode (compatibleRow cat pri rsv dst len payload trl) = encodeCompatible cat pri rsv dst len payload trl := by
  cases cat <;> rfl

theorem wellFormed_standardRow (cat : Category) (pri : Priority) (rsv : Bool) (dst src : Addr) (len : Byte)
    (payload : List Byte) (crc : BitVec 16) :
    (standardRow cat pri rsv dst src len payload crc).wellFormed = payloadMatches len payload := by
  cases cat <;> rfl

theorem wellFormed_compatibleRow (cat : Category) (pri : Priority) (rsv : Bool) (dst : Addr) (len : Byte)
    (payload : List Byte) (trl : Byte) :
    (compatibleRow cat pri rsv dst len payload trl).wellFormed = payloadMatches len payload := by
  cases cat <;> rfl

theorem payloadMatches_iff {len : Byte} {payload : List Byte} :
    payloadMatches len payload = true ↔ payload.length = payloadCount len := beq_iff_eq

/-! ### Decoding what was encoded -/

theorem decodeWithSeq_encodeSeq (make : List Byte → Instr) (bytes rest : List Byte) :
    decodeWithSeq make (encodeSeq bytes ++ rest) = .ok (make bytes, rest) := by
  simp [decodeWithSeq]

theorem decode_encodeStandard (cat : Category) (pri : Priority) (rsv : Bool) (dst src : Addr) {len : Byte}
    {payload : List Byte} (crc : BitVec 16) (rest : List Byte) (h : payloadMatches len payload = true) :
    decode (encodeStandard cat pri rsv dst src len payload crc ++ rest) =
      .ok (standardRow cat pri rsv dst src len payload crc, rest) := by
  obtain ⟨h7, h6, h3, h0, hcat, hpri⟩ := tableHeader_known cat .standard pri rsv
  have htake := takeBytes_append (rest := hiByte crc :: loByte crc :: rest) (payloadMatches_iff.mp h)
  simp only [encodeStandard, List.cons_append, List.nil_append, List.append_assoc, decode, decodeFrame, if_true, h7, h6,
    h3, variantBit, Bool.false_eq_true, if_false, decodeStandard, htake, hcat, hpri, h0, joinBytes_hi_lo]

theorem decode_encodeCompatible (cat : Category) (pri : Priority) (rsv : Bool) (dst : Addr) {len : Byte}
    {payload : List Byte} (trl : Byte) (rest : List Byte) (h : payloadMatches len payload = true) :
    decode (encodeCompatible cat pri rsv dst len payload trl ++ rest) =
      .ok (compatibleRow cat pri rsv dst len payload trl, rest) := by
  obtain ⟨h7, h6, h3, h0, hcat, hpri⟩ := tableHeader_known cat .compatible pri rsv
  have htake := takeBytes_append (rest := trl :: rest) (payloadMatches_iff.mp h)
  simp only [encodeCompatible, List.cons_append, List.nil_append, List.append_assoc, decode, decodeFrame, if_true, h7, h6,
    h3, variantBit, Bool.false_eq_true, if_false, decodeCompatible, htake, hcat, hpri, h0, joinBytes_hi_lo]

/-- A header of category 4 to 7 is read back as its row. -/
theorem decode_reservedCat4to7 (cc : BitVec 2) (var : Variant) (pri : Priority) (rsv : Bool) (rest : List Byte) :
    decode (0xA5 :: tableHeader ((1 : BitVec 2) ++ cc) var pri rsv :: rest) =
      .ok (.frameReservedCat4to7 cc var pri rsv, rest) := by
  have hbits : ∀ c : BitVec 2, ((1 : BitVec 2) ++ c : BitVec 4).getLsbD 3 = false ∧
      ((1 : BitVec 2) ++ c : BitVec 4).getLsbD 2 = true ∧ ((1 : BitVec 2) ++ c : BitVec 4).extractLsb' 0 2 = c := by
    decide
  obtain ⟨hc3, hc2, hcc⟩ := hbits cc
  obtain ⟨h7, h6, h3, h0, hcat, -, hpri⟩ := tableHeader_fields ((1 : BitVec 2) ++ cc) var pri rsv
  simp only [decode, if_true, decodeFrame, h7, hc3, Bool.false_eq_true, if_false, h6, hc2, hcat, hcc, h3,
    variantOfBit_bit, hpri, priorityOfBits_bits, h0]

/-- A header of category 8 to 15 is read back as its row. -/
theorem decode_reservedCat8to15 (ccc : BitVec 3) (var : Variant) (pri : Priority) (rsv : Bool) (rest : List Byte) :
    decode (0xA5 :: tableHeader ((1 : BitVec 1) ++ ccc) var pri rsv :: rest) =
      .ok (.frameReservedCat8to15 ccc var pri rsv, rest) := by
  have hbits : ∀ c : BitVec 3, ((1 : BitVec 1) ++ c : BitVec 4).getLsbD 3 = true ∧
      ((1 : BitVec 1) ++ c : BitVec 4).extractLsb' 0 3 = c := by decide
  obtain ⟨hc3, hccc⟩ := hbits ccc
  obtain ⟨h7, -, h3, h0, -, hcat, hpri⟩ := tableHeader_fields ((1 : BitVec 1) ++ ccc) var pri rsv
  simp only [decode, if_true, decodeFrame, h7, hc3, hcat, hccc, h3, variantOfBit_bit, hpri, priorityOfBits_bits, h0]

/-- Settles O48: the frame rows by `decode_encodeStandard` and `decode_encodeCompatible`, the reserved rows by
`decode_reservedCat4to7` and `decode_reservedCat8to15`; the operations by their selector and their operands' own
round trips. -/
theorem decodeOfEncodeIsTheInstruction : Obligations.DecodeOfEncodeIsTheInstruction := by
  unfold Obligations.DecodeOfEncodeIsTheInstruction
  intro i rest hwf
  cases i with
  | reset | reservedOp7 => rfl
  | crc4 bytes => exact decodeWithSeq_encodeSeq .crc4 bytes rest
  | crc16 bytes => exact decodeWithSeq_encodeSeq .crc16 bytes rest
  | process bytes => exact decodeWithSeq_encodeSeq .process bytes rest
  | classify kind => simp [encode, decode, decodeOperation, decodeClassify]
  | encode cat var pri dst payload =>
    simp [encode, decode, decodeOperation, decodeEncode, decodeWithSeq_encodeSeq]
  | encodei cat var kind dst payload =>
    simp [encode, decode, decodeOperation, decodeEncodei, decodeWithSeq_encodeSeq]
  | frameCommandStandard pri rsv dst src len payload crc =>
    exact decode_encodeStandard .command pri rsv dst src crc rest hwf
  | frameStatusStandard pri rsv dst src len payload crc =>
    exact decode_encodeStandard .status pri rsv dst src crc rest hwf
  | frameCooperationStandard pri rsv dst src len payload crc =>
    exact decode_encodeStandard .cooperation pri rsv dst src crc rest hwf
  | frameExtendedStandard pri rsv dst src len payload crc =>
    exact decode_encodeStandard .extended pri rsv dst src crc rest hwf
  | frameCommandCompatible pri rsv dst len payload trl =>
    exact decode_encodeCompatible .command pri rsv dst trl rest hwf
  | frameStatusCompatible pri rsv dst len payload trl =>
    exact decode_encodeCompatible .status pri rsv dst trl rest hwf
  | frameCooperationCompatible pri rsv dst len payload trl =>
    exact decode_encodeCompatible .cooperation pri rsv dst trl rest hwf
  | frameExtendedCompatible pri rsv dst len payload trl =>
    exact decode_encodeCompatible .extended pri rsv dst trl rest hwf
  | frameReservedCat4to7 cc var pri rsv => exact decode_reservedCat4to7 cc var pri rsv rest
  | frameReservedCat8to15 ccc var pri rsv => exact decode_reservedCat8to15 ccc var pri rsv rest

/-! ### What decodes is an encoding -/

theorem eq_categoryByte {b : Byte} {c : Category} (h : decodeCategory b = .ok c) : b = categoryByte c := by
  have hall : ∀ b : Byte, b.toNat < 4 → b = categoryByte (categoryOfBits (b.extractLsb' 0 2)) := by decide
  unfold decodeCategory at h
  split at h
  · cases h
    exact hall b ‹_›
  · cases h

theorem eq_variantByte {b : Byte} {v : Variant} (h : decodeVariant b = .ok v) : b = variantByte v := by
  have hall : ∀ b : Byte, b.toNat < 2 → b = variantByte (variantOfBit (b.getLsbD 0)) := by decide
  unfold decodeVariant at h
  split at h
  · cases h
    exact hall b ‹_›
  · cases h

theorem eq_priorityByte {b : Byte} {p : Priority} (h : decodePriority b = .ok p) : b = priorityByte p := by
  have hall : ∀ b : Byte, b.toNat < 4 → b = priorityByte (priorityOfBits (b.extractLsb' 0 2)) := by decide
  unfold decodePriority at h
  split at h
  · cases h
    exact hall b ‹_›
  · cases h

theorem eq_kindByte {b : Byte} {k : Kind} (h : decodeKind b = .ok k) : b = kindByte k := by
  unfold decodeKind at h
  split_ifs at h <;> cases h <;> assumption

theorem decodeWithSeq_eq_ok {make : List Byte → Instr} {bytes rest : List Byte} {i : Instr}
    (h : decodeWithSeq make bytes = .ok (i, rest)) : ∃ seq, i = make seq ∧ bytes = encodeSeq seq ++ rest := by
  unfold decodeWithSeq at h
  split at h
  · rename_i seq rest' hseq
    cases h
    exact ⟨seq, rfl, decodeSeq_eq_ok hseq⟩
  · cases h

/-- `bytes` are the encoding of the well-formed instruction `i` and then `rest`. -/
def IsEncoding (i : Instr) (bytes rest : List Byte) : Prop := i.wellFormed = true ∧ bytes = encode i ++ rest

theorem decodeClassify_isEncoding {bytes rest : List Byte} {i : Instr} (h : decodeClassify bytes = .ok (i, rest)) :
    IsEncoding i (0x03 :: bytes) rest := by
  unfold decodeClassify at h
  split at h
  · cases h
  · split at h
    · rename_i hk
      cases h
      rw [eq_kindByte hk]
      exact ⟨rfl, rfl⟩
    · cases h

theorem decodeEncode_isEncoding {bytes rest : List Byte} {i : Instr} (h : decodeEncode bytes = .ok (i, rest)) :
    IsEncoding i (0x04 :: bytes) rest := by
  unfold decodeEncode at h
  split at h
  · split at h
    · rename_i hc hv hp
      obtain ⟨seq, rfl, rfl⟩ := decodeWithSeq_eq_ok h
      rw [eq_categoryByte hc, eq_variantByte hv, eq_priorityByte hp]
      exact ⟨rfl, by simp [encode]⟩
    · cases h
    · cases h
    · cases h
  · cases h

theorem decodeEncodei_isEncoding {bytes rest : List Byte} {i : Instr} (h : decodeEncodei bytes = .ok (i, rest)) :
    IsEncoding i (0x05 :: bytes) rest := by
  unfold decodeEncodei at h
  split at h
  · split at h
    · rename_i hc hv hk
      obtain ⟨seq, rfl, rfl⟩ := decodeWithSeq_eq_ok h
      rw [eq_categoryByte hc, eq_variantByte hv, eq_kindByte hk]
      exact ⟨rfl, by simp [encode]⟩
    · cases h
    · cases h
    · cases h
  · cases h

theorem decodeOperation_isEncoding {op : Byte} {bytes rest : List Byte} {i : Instr}
    (h : decodeOperation op bytes = .ok (i, rest)) : IsEncoding i (op :: bytes) rest := by
  unfold decodeOperation at h
  split at h
  · cases h; subst op; exact ⟨rfl, rfl⟩
  split at h
  · obtain ⟨seq, rfl, rfl⟩ := decodeWithSeq_eq_ok h; subst op; exact ⟨rfl, rfl⟩
  split at h
  · obtain ⟨seq, rfl, rfl⟩ := decodeWithSeq_eq_ok h; subst op; exact ⟨rfl, rfl⟩
  split at h
  · subst op; exact decodeClassify_isEncoding h
  split at h
  · subst op; exact decodeEncode_isEncoding h
  split at h
  · subst op; exact decodeEncodei_isEncoding h
  split at h
  · obtain ⟨seq, rfl, rfl⟩ := decodeWithSeq_eq_ok h; subst op; exact ⟨rfl, rfl⟩
  split at h
  · cases h; subst op; exact ⟨rfl, rfl⟩
  · cases h

theorem decodeStandard_isEncoding {h : Byte} {bytes rest : List Byte} {i : Instr} (h7 : h.getLsbD 7 = false)
    (h6 : h.getLsbD 6 = false) (h3 : h.getLsbD 3 = variantBit .standard) (hdec : decodeStandard h bytes = .ok (i, rest)) :
    IsEncoding i (0xA5 :: h :: bytes) rest := by
  unfold decodeStandard at hdec
  split at hdec
  · split at hdec
    · rename_i htake
      obtain ⟨rfl, hlen⟩ := takeBytes_eq_some htake
      cases hdec
      refine ⟨?_, ?_⟩
      · rw [wellFormed_standardRow, payloadMatches_iff, hlen]
      · rw [encode_standardRow, encodeStandard, tableHeader_of_known h7 h6 h3]
        simp
    · cases hdec
  · cases hdec

theorem decodeCompatible_isEncoding {h : Byte} {bytes rest : List Byte} {i : Instr} (h7 : h.getLsbD 7 = false)
    (h6 : h.getLsbD 6 = false) (h3 : h.getLsbD 3 = variantBit .compatible) (hdec : decodeCompatible h bytes = .ok (i, rest)) :
    IsEncoding i (0xA5 :: h :: bytes) rest := by
  unfold decodeCompatible at hdec
  split at hdec
  · split at hdec
    · rename_i htake
      obtain ⟨rfl, hlen⟩ := takeBytes_eq_some htake
      cases hdec
      refine ⟨?_, ?_⟩
      · rw [wellFormed_compatibleRow, payloadMatches_iff, hlen]
      · rw [encode_compatibleRow, encodeCompatible, tableHeader_of_known h7 h6 h3]
        simp
    · cases hdec
  · cases hdec

theorem decodeFrame_isEncoding {bytes rest : List Byte} {i : Instr} (h : decodeFrame bytes = .ok (i, rest)) :
    IsEncoding i (0xA5 :: bytes) rest := by
  cases bytes with
  | nil => cases h
  | cons hdr bytes =>
    have hhdr := tableHeader_of_fields hdr
    obtain ⟨hres8, hres4⟩ := reservedBits_of_header hdr
    simp only [decodeFrame] at h
    split at h
    · cases h
      refine ⟨rfl, ?_⟩
      rw [encode, hres8 ‹_›, hhdr]
      rfl
    rename_i h7
    split at h
    · cases h
      refine ⟨rfl, ?_⟩
      rw [encode, hres4 (Bool.eq_false_iff.mpr h7) ‹_›, hhdr]
      rfl
    rename_i h6
    rw [Bool.not_eq_true] at h7 h6
    split at h
    · exact decodeCompatible_isEncoding h7 h6 ‹_› h
    · exact decodeStandard_isEncoding h7 h6 (Bool.eq_false_iff.mpr ‹_›) h

/-- Settles O49: a selector byte is the marker, and what follows a frame (`decodeFrame_isEncoding`), or an operation code
(`decodeOperation_isEncoding`). -/
theorem decodedBytesAreTheEncoding : Obligations.DecodedBytesAreTheEncoding := by
  unfold Obligations.DecodedBytesAreTheEncoding
  intro bytes i rest h
  cases bytes with
  | nil => cases h
  | cons b bytes =>
    rw [decode] at h
    split at h
    · subst b
      exact decodeFrame_isEncoding h
    · exact decodeOperation_isEncoding h

/-- Settles O47: each word is decoded by the kernel. -/
theorem wordsOfTheOpcodeTableDecode : Obligations.WordsOfTheOpcodeTableDecode := by
  unfold Obligations.WordsOfTheOpcodeTableDecode
  exact ⟨rfl, rfl, rfl, rfl, rfl, rfl, rfl, rfl, rfl⟩

end Sys2Proof
end

section
/-!
SUPPORT. Proofs about the laws of 40_crc.md: linearity and single-bit flips (R86) and the polynomial form of the loop
(R80). All three are shown of the bit-serial loop; for the last two the message is its bits (`crc_eq_foldl_bits`).
-/

namespace Sys2Proof.Machine

/-! ### The loop over bits -/

/-- The bits of a message in the order the CRC takes them. -/
def messageBits (bytes : List Byte) : List Bool := bytes.flatMap msbFirstBits

theorem length_messageBits (bytes : List Byte) : (messageBits bytes).length = 8 * bytes.length := by
  simp [messageBits, msbFirstBits, List.length_flatMap, Nat.mul_comm]

theorem crc_eq_foldl_bits {W : Nat} (poly init : BitVec W) (bytes : List Byte) :
    crc poly init bytes = (messageBits bytes).foldl (crcBit poly) init := by
  simp only [crc, messageBits, List.foldl_flatMap, ← crcByte_eq_foldl_bits]

/-! ### Linearity -/

/-- A step is linear in register and message bit together. -/
theorem crcBit_xor {W : Nat} (poly a b : BitVec W) (x y : Bool) :
    crcBit poly a x ^^^ crcBit poly b y = crcBit poly (a ^^^ b) (x ^^ y) := by
  have hfb : ((a ^^^ b).msb ^^ (x ^^ y)) = ((a.msb ^^ x) ^^ (b.msb ^^ y)) := by
    rw [BitVec.msb_xor, Bool.xor_assoc, Bool.xor_assoc, Bool.xor_left_comm b.msb]
  have hswap (u v : BitVec W) : u ^^^ poly ^^^ v = u ^^^ v ^^^ poly := by
    rw [BitVec.xor_assoc, BitVec.xor_comm poly, BitVec.xor_assoc]
  simp only [crcBit, hfb, BitVec.shiftLeft_xor_distrib]
  cases a.msb ^^ x <;> cases b.msb ^^ y <;> simp [← BitVec.xor_assoc, hswap]

theorem crcByte_xor {W : Nat} (poly a b : BitVec W) (x y : Byte) :
    crcByte poly a x ^^^ crcByte poly b y = crcByte poly (a ^^^ b) (x ^^^ y) := by
  simp only [crcByte, List.foldl_cons, List.foldl_nil, crcBit_xor, BitVec.getLsbD_xor]

theorem crc_xor {W : Nat} (poly a b : BitVec W) {x y : List Byte} (h : x.length = y.length) :
    crc poly a x ^^^ crc poly b y = crc poly (a ^^^ b) (List.zipWith (· ^^^ ·) x y) := by
  induction x generalizing a b y with
  | nil =>
    obtain rfl := List.eq_nil_of_length_eq_zero h.symm
    rfl
  | cons c x ih =>
    obtain ⟨d, y, rfl⟩ := List.exists_cons_of_length_eq_add_one h.symm
    have hrest := ih (crcByte poly a c) (crcByte poly b d) (Nat.succ.inj h)
    rwa [crcByte_xor] at hrest

/-- Settles O9: `crc_xor` for one seed, which cancels. -/
theorem crcIsLinearInTheMessage : Obligations.CrcIsLinearInTheMessage := by
  unfold Obligations.CrcIsLinearInTheMessage
  intro W poly init x y hlen
  rw [crc_xor poly init init hlen, BitVec.xor_self]
  rfl

/-! ### Flips of one bit -/

/-- With an odd polynomial no two registers lead to the same register on the same message bit. -/
theorem crcBit_injective {W : Nat} {poly : BitVec (W + 1)} (hpoly : poly.getLsbD 0 = true) {a b : BitVec (W + 1)}
    {bit : Bool} (h : crcBit poly a bit = crcBit poly b bit) : a = b := by
  have hzero : crcBit poly (a ^^^ b) false = 0#(W + 1) := by
    rw [← bne_self_eq_false bit, ← crcBit_xor, h, BitVec.xor_self]
  have hunbit : crcUnbit false 0#(W + 1) = 0#(W + 1) := by
    ext i
    simp [crcUnbit]
  rw [crcBit_eq_iff hpoly BitVec.getLsbD_zero, hunbit] at hzero
  exact BitVec.xor_eq_zero_iff.mp hzero

theorem foldl_crcBit_injective {W : Nat} {poly : BitVec (W + 1)} (hpoly : poly.getLsbD 0 = true) (bits : List Bool)
    {a b : BitVec (W + 1)} (h : bits.foldl (crcBit poly) a = bits.foldl (crcBit poly) b) : a = b := by
  induction bits generalizing a b with
  | nil => exact h
  | cons bit bits ih => exact crcBit_injective hpoly (ih h)

/-- With an odd polynomial the message bit shows in the register. -/
theorem crcBit_not_ne {W : Nat} {poly : BitVec (W + 1)} (hpoly : poly.getLsbD 0 = true) (c : BitVec (W + 1)) (bit : Bool) :
    crcBit poly c (!bit) ≠ crcBit poly c bit := by
  intro h
  have hzero : crcBit poly 0#(W + 1) true = 0#(W + 1) := by
    have hx := crcBit_xor poly c c (!bit) bit
    rw [h, BitVec.xor_self, BitVec.xor_self, Bool.not_xor_self] at hx
    exact hx.symm
  have hunbit := (crcBit_eq_iff hpoly BitVec.getLsbD_zero _ _).mp hzero
  have hmsb : (crcUnbit true 0#(W + 1)).msb = true := by simp [crcUnbit]
  rw [← hunbit, BitVec.msb_zero] at hmsb
  cases hmsb

/-- The bits of a byte with bit `i` flipped: one bit is the other one. -/
theorem msbFirstBits_flip (b : Byte) {i : Nat} (hi : i < 8) : ∃ front bit back,
    msbFirstBits b = front ++ bit :: back ∧ msbFirstBits (b ^^^ ((1 : Byte) <<< i)) = front ++ (!bit) :: back := by
  refine ⟨(msbFirstBits b).take (7 - i), b.getLsbD i, (msbFirstBits b).drop (8 - i), ?_⟩
  interval_cases i <;> simp [msbFirstBits, -BitVec.getLsbD_eq_getElem]

/-- A message with one bit flipped, by what stands before and after the flipped byte. -/
theorem flipBit_eq {m : List Byte} {k : Nat} (hk : k < m.length) (i : Nat) :
    m = m.take k ++ m[k] :: m.drop (k + 1) ∧
    flipBit m k i = m.take k ++ (m[k] ^^^ ((1 : Byte) <<< i)) :: m.drop (k + 1) :=
  ⟨by simp, List.modify_eq_take_cons_drop hk⟩

/-- 40_crc.md R86 for every odd polynomial and every seed: flipping one bit changes the CRC. -/
theorem crc_flipBit_ne {W : Nat} {poly : BitVec (W + 1)} (hpoly : poly.getLsbD 0 = true) (init : BitVec (W + 1))
    {m : List Byte} {k i : Nat} (hk : k < m.length) (hi : i < 8) : crc poly init (flipBit m k i) ≠ crc poly init m := by
  obtain ⟨hm, hflip⟩ := flipBit_eq hk i
  obtain ⟨front, bit, back, hbits, hbits'⟩ := msbFirstBits_flip m[k] hi
  rw [hflip]
  conv_rhs => rw [hm]
  simp only [crc_eq_foldl_bits, messageBits, List.flatMap_append, List.flatMap_cons, hbits, hbits', List.foldl_append,
    List.foldl_cons]
  intro h
  exact crcBit_not_ne hpoly _ bit (foldl_crcBit_injective hpoly _ (foldl_crcBit_injective hpoly _ h))

theorem odd_crc16Poly : defaultWire.crc16Poly.getLsbD 0 = true := by decide
theorem odd_crc4Poly : defaultWire.crc4Poly.getLsbD 0 = true := by decide

/-- Settles O10: `crc_flipBit_ne`, both default polynomials being odd. -/
theorem singleBitFlipChangesBothCrcs : Obligations.SingleBitFlipChangesBothCrcs := by
  unfold Obligations.SingleBitFlipChangesBothCrcs
  intro m k i hk hi
  exact ⟨crc_flipBit_ne odd_crc16Poly _ hk hi, crc_flipBit_ne odd_crc4Poly _ hk hi⟩

/-! ### The polynomial form -/

section

open Polynomial

/-- A bit as a polynomial over GF(2). -/
noncomputable def bitPoly (b : Bool) : (ZMod 2)[X] := if b then 1 else 0

/-- A bit string as a polynomial, its first bit the highest coefficient. -/
noncomputable def bitsPoly (bits : List Bool) : (ZMod 2)[X] := bits.foldl (fun p b => X * p + bitPoly b) 0

/-- A register as a polynomial, bit `i` the coefficient of `x^i`. -/
noncomputable def vecPoly {W : Nat} (v : BitVec W) : (ZMod 2)[X] :=
  bitsPoly ((List.range W).reverse.map (fun i => v.getLsbD i))

theorem bitPoly_xor (a b : Bool) : bitPoly (a ^^ b) = bitPoly a + bitPoly b := by
  cases a <;> cases b <;> simp [bitPoly, CharTwo.add_self_eq_zero]

theorem bitsPoly_append (front back : List Bool) :
    bitsPoly (front ++ back) = X ^ back.length * bitsPoly front + bitsPoly back := by
  induction back using List.reverseRecOn with
  | nil => simp [bitsPoly]
  | append_singleton back b ih =>
    have hsnoc (bits : List Bool) : bitsPoly (bits ++ [b]) = X * bitsPoly bits + bitPoly b := by
      simp [bitsPoly]
    rw [← List.append_assoc, hsnoc, hsnoc, ih, List.length_append, List.length_singleton]
    ring

theorem vecPoly_eq_sum {W : Nat} (v : BitVec W) :
    vecPoly v = ∑ i ∈ Finset.range W, X ^ i * bitPoly (v.getLsbD i) := by
  have hrange (n : Nat) (f : Nat → Bool) :
      bitsPoly ((List.range n).reverse.map f) = ∑ i ∈ Finset.range n, X ^ i * bitPoly (f i) := by
    induction n with
    | zero => rfl
    | succ n ih =>
      rw [List.range_succ, List.reverse_append, List.map_append, bitsPoly_append, ih, Finset.sum_range_succ, add_comm]
      simp [bitsPoly]
  exact hrange W _

theorem vecPoly_xor {W : Nat} (a b : BitVec W) : vecPoly (a ^^^ b) = vecPoly a + vecPoly b := by
  simp only [vecPoly_eq_sum, BitVec.getLsbD_xor, bitPoly_xor, mul_add, Finset.sum_add_distrib]

/-- A shift multiplies by `x` and loses the top bit. -/
theorem X_mul_vecPoly {W : Nat} (c : BitVec (W + 1)) :
    X * vecPoly c = vecPoly (c <<< 1) + X ^ (W + 1) * bitPoly c.msb := by
  have hlow : ∑ i ∈ Finset.range W, X ^ (i + 1) * bitPoly ((c <<< 1).getLsbD (i + 1)) =
      X * ∑ i ∈ Finset.range W, X ^ i * bitPoly (c.getLsbD i) := by
    rw [Finset.mul_sum]
    refine Finset.sum_congr rfl fun i hi => ?_
    have hshift : (c <<< 1).getLsbD (i + 1) = c.getLsbD i := by
      simp [-BitVec.getLsbD_eq_getElem, Finset.mem_range.mp hi]
    rw [hshift]
    ring
  have hzero : bitPoly ((c <<< 1).getLsbD 0) = 0 := by simp [bitPoly]
  rw [vecPoly_eq_sum, vecPoly_eq_sum, Finset.sum_range_succ, Finset.sum_range_succ', hlow, hzero,
    BitVec.msb_eq_getLsbD_last, Nat.add_sub_cancel]
  ring

theorem degree_vecPoly_lt {W : Nat} (v : BitVec W) : (vecPoly v).degree < W := by
  rw [vecPoly_eq_sum]
  refine (degree_sum_le _ _).trans_lt ((Finset.sup_lt_iff (WithBot.bot_lt_coe W)).mpr fun i hi => ?_)
  rw [bitPoly]
  split
  · rw [mul_one, degree_X_pow]
    exact WithBot.coe_lt_coe.mpr (Finset.mem_range.mp hi)
  · rw [mul_zero, degree_zero]
    exact WithBot.bot_lt_coe W

/-- One step of the loop multiplies by `x`, adds the message bit at `x^W`, and subtracts the divisor or not. -/
theorem dvd_sub_vecPoly_crcBit {W : Nat} (poly c : BitVec (W + 1)) (bit : Bool) :
    X ^ (W + 1) + vecPoly poly ∣ X * vecPoly c + X ^ (W + 1) * bitPoly bit - vecPoly (crcBit poly c bit) := by
  have hstep : X * vecPoly c + X ^ (W + 1) * bitPoly bit = vecPoly (c <<< 1) + X ^ (W + 1) * bitPoly (c.msb ^^ bit) := by
    rw [X_mul_vecPoly, bitPoly_xor]
    ring
  rw [hstep]
  cases hfb : c.msb ^^ bit with
  | false => simp [crcBit, hfb, bitPoly]
  | true =>
    simp only [crcBit, hfb, if_true, vecPoly_xor, bitPoly]
    rw [CharTwo.sub_eq_add, mul_one, ← add_assoc, add_right_comm (vecPoly _), CharTwo.add_self_eq_zero, zero_add]

/-- The loop keeps the remainder (40_crc.md R80). -/
theorem dvd_sub_vecPoly_foldl {W : Nat} (poly init : BitVec (W + 1)) (bits : List Bool) :
    X ^ (W + 1) + vecPoly poly ∣
      X ^ (W + 1) * bitsPoly bits + X ^ bits.length * vecPoly init - vecPoly (bits.foldl (crcBit poly) init) := by
  induction bits using List.reverseRecOn with
  | nil => simp [bitsPoly]
  | append_singleton bits b ih =>
    rw [List.foldl_append, List.foldl_cons, List.foldl_nil]
    have hstep := dvd_add (ih.mul_left X) (dvd_sub_vecPoly_crcBit poly (bits.foldl (crcBit poly) init) b)
    convert hstep using 1
    rw [bitsPoly_append, List.length_append, List.length_singleton]
    simp only [bitsPoly, List.foldl_cons, List.foldl_nil]
    ring

/-- A register is its own remainder. -/
theorem vecPoly_eq_modByMonic {W : Nat} (poly v : BitVec W) {p : (ZMod 2)[X]} (h : X ^ W + vecPoly poly ∣ p - vecPoly v) :
    vecPoly v = p %ₘ (X ^ W + vecPoly poly) := by
  have hmonic : (X ^ W + vecPoly poly).Monic := monic_X_pow_add (degree_vecPoly_lt poly)
  have hdegree : (vecPoly v).degree < (X ^ W + vecPoly poly).degree := by
    rw [degree_add_eq_left_of_degree_lt, degree_X_pow]
    · exact degree_vecPoly_lt v
    · rw [degree_X_pow]
      exact degree_vecPoly_lt poly
  rw [modByMonic_eq_of_dvd_sub hmonic h, (modByMonic_eq_self_iff hmonic).mpr hdegree]

end

/-- Settles O11: the loop keeps the remainder (`dvd_sub_vecPoly_foldl`), and a register is its own. -/
theorem crcIsThePolynomialRemainder : Obligations.CrcIsThePolynomialRemainder := by
  unfold Obligations.CrcIsThePolynomialRemainder
  intro W poly init bytes hW
  obtain ⟨W, rfl⟩ := Nat.exists_eq_add_one_of_ne_zero hW.ne'
  have hloop := dvd_sub_vecPoly_foldl poly init (messageBits bytes)
  rw [length_messageBits, ← crc_eq_foldl_bits] at hloop
  exact vecPoly_eq_modByMonic poly _ hloop

end Sys2Proof.Machine
end

section
/-!
SUPPORT. Proofs about the judgement of a candidate, 43_assembler.md section 2 (R123): when it is which verdict
(`Judged`), and that it accepts exactly the frames of 30_encoding.md. A candidate is looked at from its marker on
(`judge_memDrop`); bytes from a marker on are a frame with some fields, right or wrong (`exists_standardFrame`,
`exists_compatibleFrame`), whose fields `standardFrame_readBack` and `compatibleFrame_readBack` tell.
-/

namespace Sys2Proof.Machine

section

variable {w : Wire} {buf : List Byte} {p : Nat}

/-! ### The verdicts one by one -/

/-- The variant a candidate's header byte declares. -/
def candidateVar (w : Wire) (buf : List Byte) (p : Nat) : Variant := varOf w (headerVar w.hdr (byteAt buf (p + 1)))

/-- The length byte of a candidate, where its variant has it. -/
def candidateLen (w : Wire) (buf : List Byte) (p : Nat) : Nat :=
  (byteAt buf (p + headLength (candidateVar w buf p) - 1)).toNat

/-- `Judge(p)` by its branches (43_assembler.md R123): which verdict, and what was found on the way to it. -/
inductive Judged (w : Wire) (buf : List Byte) (p : Nat) : Verdict → Prop
  | noHeader : buf.length - p < 2 → Judged w buf p .incomplete
  | unknownCategory : catOf w (headerCat w.hdr (byteAt buf (p + 1))) = none →
      Judged w buf p (.reject .unknownFrameCategory)
  | noLength {cat : Category} : catOf w (headerCat w.hdr (byteAt buf (p + 1))) = some cat →
      buf.length - p < headLength (candidateVar w buf p) → Judged w buf p .incomplete
  | tooLong {cat : Category} : catOf w (headerCat w.hdr (byteAt buf (p + 1))) = some cat →
      maxPayload < candidateLen w buf p → Judged w buf p (.reject .invalidLength)
  | cut {cat : Category} : catOf w (headerCat w.hdr (byteAt buf (p + 1))) = some cat →
      candidateLen w buf p ≤ maxPayload →
      buf.length - p < headLength (candidateVar w buf p) + candidateLen w buf p + trailerLength (candidateVar w buf p) →
      Judged w buf p .incomplete
  | accepted {cat : Category} : catOf w (headerCat w.hdr (byteAt buf (p + 1))) = some cat →
      candidateLen w buf p ≤ maxPayload →
      headLength (candidateVar w buf p) + candidateLen w buf p + trailerLength (candidateVar w buf p) ≤ buf.length - p →
      integrityOk w (candidateVar w buf p) buf p (p + headLength (candidateVar w buf p) + candidateLen w buf p) = true →
      Judged w buf p (.accept
        (decodedAt w cat (candidateVar w buf p) (priOf w (headerPri w.hdr (byteAt buf (p + 1)))) buf p
          (p + headLength (candidateVar w buf p) + candidateLen w buf p))
        (headLength (candidateVar w buf p) + candidateLen w buf p + trailerLength (candidateVar w buf p)))
  | badCrc {cat : Category} : catOf w (headerCat w.hdr (byteAt buf (p + 1))) = some cat →
      candidateLen w buf p ≤ maxPayload → Judged w buf p (.reject .invalidCrc)

theorem judged (w : Wire) (buf : List Byte) (p : Nat) : Judged w buf p (judge w buf p) := by
  unfold judge
  dsimp only
  split
  · exact .noHeader ‹_›
  split
  · exact .unknownCategory ‹_›
  split
  · exact .noLength ‹_› ‹_›
  split
  · exact .tooLong ‹_› ‹_›
  rename_i hlen
  split
  · exact .cut ‹_› (Nat.not_lt.mp hlen) ‹_›
  rename_i hall
  split
  · exact .accepted ‹_› (Nat.not_lt.mp hlen) (Nat.not_lt.mp hall) ‹_›
  · exact .badCrc ‹_› (Nat.not_lt.mp hlen)

theorem judge_of_catOf_none (hthere : p + 1 < buf.length) (hcat : catOf w (headerCat w.hdr (byteAt buf (p + 1))) = none) :
    judge w buf p = .reject .unknownFrameCategory := by
  have h2 : ¬ buf.length - p < 2 := by omega
  simp only [judge, h2, if_false, hcat]

theorem judge_of_maxPayload_lt {cat : Category} (hcat : catOf w (headerCat w.hdr (byteAt buf (p + 1))) = some cat)
    (hthere : p + headLength (candidateVar w buf p) ≤ buf.length) (hlong : maxPayload < candidateLen w buf p) :
    judge w buf p = .reject .invalidLength := by
  have hhead : 2 ≤ headLength (candidateVar w buf p) := by cases candidateVar w buf p <;> decide
  have h2 : ¬ buf.length - p < 2 := by omega
  have hH : ¬ buf.length - p < headLength (candidateVar w buf p) := by omega
  simp only [candidateVar, candidateLen] at hH hlong
  simp only [judge, h2, hH, hcat, hlong, if_false, if_true]

/-- A candidate with 65 bytes from its marker on is judged (43_assembler.md R139). -/
theorem judge_ne_incomplete (h : p + maxWire ≤ buf.length) : judge w buf p ≠ .incomplete := by
  intro hj
  have hjudged := judged w buf p
  have hhead : headLength (candidateVar w buf p) + trailerLength (candidateVar w buf p) ≤ 9 := by
    cases candidateVar w buf p <;> decide
  simp only [maxWire] at h
  rw [hj] at hjudged
  cases hjudged with
  | noHeader => omega
  | noLength => omega
  | cut _ hlen => simp only [maxPayload] at hlen; omega

/-! ### Accepted candidates are frames -/

/-- A header byte of known category is the header byte of a message with its fields. -/
theorem messageHeader_eq (hwf : wireWf w = true) {h : Byte} {d : Decoded}
    (hcat : catOf w (headerCat w.hdr h) = some d.category) (hvar : varOf w (headerVar w.hdr h) = d.variant)
    (hpri : priOf w (headerPri w.hdr h) = d.priority) : messageHeader w d (h.getLsbD w.hdr.rsvBit) = h := by
  rw [messageHeader, catCode_of_catOf hcat, ← hvar, varCode_varOf hwf, ← hpri, priCode_priOf hwf,
    packHeader_fields ((wireWf_iff w).mp hwf).1]

theorem lengthByte_eq {len : Byte} {payload : List Byte} (h : payload.length = len.toNat) : lengthByte payload = len := by
  rw [lengthByte, h, BitVec.ofNat_toNat, BitVec.setWidth_eq]

/-- Bytes from a marker on, enough of them, are a Standard frame with some fields (30_encoding.md R62). -/
theorem exists_standardFrame {n : Nat} (hsof : buf[0]? = some w.sof) (hlen : 9 + n ≤ buf.length) :
    ∃ hdr dst src len payload crc rest, buf = standardFrame w hdr dst src len payload crc ++ rest ∧ payload.length = n := by
  match buf, hlen with
  | b :: hdr :: d1 :: d2 :: s1 :: s2 :: len :: tail, hlen =>
    obtain rfl : b = w.sof := Option.some_inj.mp hsof
    simp only [List.length_cons] at hlen
    match hback : tail.drop n with
    | c1 :: c2 :: rest =>
      refine ⟨hdr, read16 w d1 d2, read16 w s1 s2, len, tail.take n, read16 w c1 c2, rest, ?_, ?_⟩
      · conv_lhs => rw [← List.take_append_drop n tail, hback]
        simp [standardFrame, standardBody, serial16_read16]
      · rw [List.length_take]
        omega
    | [] | [_] =>
      have hshort := congrArg List.length hback
      rw [List.length_drop] at hshort
      exact absurd hshort (by simp only [List.length_cons, List.length_nil]; omega)
  | [], hlen | [_], hlen | [_, _], hlen | [_, _, _], hlen | [_, _, _, _], hlen | [_, _, _, _, _], hlen
  | [_, _, _, _, _, _], hlen =>
    exact absurd hlen (by simp only [List.length_cons, List.length_nil]; omega)

/-- Bytes from a marker on, enough of them, are a Compatible frame with some fields (30_encoding.md R63). -/
theorem exists_compatibleFrame {n : Nat} (hsof : buf[0]? = some w.sof) (hlen : 6 + n ≤ buf.length) :
    ∃ hdr dst len payload trl rest, buf = compatibleFrame w hdr dst len payload trl ++ rest ∧ payload.length = n := by
  match buf, hlen with
  | b :: hdr :: d1 :: d2 :: len :: tail, hlen =>
    obtain rfl : b = w.sof := Option.some_inj.mp hsof
    simp only [List.length_cons] at hlen
    match hback : tail.drop n with
    | trl :: rest =>
      refine ⟨hdr, read16 w d1 d2, len, tail.take n, trl, rest, ?_, ?_⟩
      · conv_lhs => rw [← List.take_append_drop n tail, hback]
        simp [compatibleFrame, compatibleBody, serial16_read16]
      · rw [List.length_take]
        omega
    | [] =>
      have hshort := congrArg List.length hback
      rw [List.length_drop] at hshort
      exact absurd hshort (by rw [List.length_nil]; omega)
  | [], hlen | [_], hlen | [_, _], hlen | [_, _, _], hlen | [_, _, _, _], hlen =>
    exact absurd hlen (by simp only [List.length_cons, List.length_nil]; omega)

/-- A Standard frame whose header byte, length byte and integrity field are right is the frame of its message. -/
theorem messageFrame_eq_standardFrame (hwf : wireWf w = true) {cat : Category} {hdr : Byte} {dst src : Addr} {len : Byte}
    {payload : List Byte} {crc : BitVec 16} (hcat : catOf w (headerCat w.hdr hdr) = some cat)
    (hvar : varOf w (headerVar w.hdr hdr) = .standard) (hlen : payload.length = len.toNat)
    (hcrc : crc16 w (standardBody w hdr dst src len payload) = crc) :
    messageFrame w ⟨cat, .standard, priOf w (headerPri w.hdr hdr), dst, some src, payload⟩ (hdr.getLsbD w.hdr.rsvBit) =
      standardFrame w hdr dst src len payload crc := by
  rw [messageFrame, messageHeader_eq hwf hcat hvar rfl]
  simp only [lengthByte_eq hlen, Option.getD_some, hcrc]

/-- A Compatible frame whose header byte, length byte and integrity byte are right is the frame of its message. -/
theorem messageFrame_eq_compatibleFrame (hwf : wireWf w = true) {cat : Category} {hdr : Byte} {dst : Addr} {len : Byte}
    {payload : List Byte} {trl : Byte} (hcat : catOf w (headerCat w.hdr hdr) = some cat)
    (hvar : varOf w (headerVar w.hdr hdr) = .compatible) (hlen : payload.length = len.toNat)
    (htrl : narrowTrailer w (compatibleBody w hdr dst len payload) = trl) :
    messageFrame w ⟨cat, .compatible, priOf w (headerPri w.hdr hdr), dst, none, payload⟩ (hdr.getLsbD w.hdr.rsvBit) =
      compatibleFrame w hdr dst len payload trl := by
  rw [messageFrame, messageHeader_eq hwf hcat hvar rfl]
  simp only [lengthByte_eq hlen, htrl]

/-- An accepted candidate at the front is the frame of its message. -/
theorem eq_messageFrame_of_judge (hwf : wireWf w = true) (hsof : buf[0]? = some w.sof) {d : Decoded} {total : Nat}
    (h : judge w buf 0 = .accept d total) :
    d.wf = true ∧ ∃ rsv rest, buf = messageFrame w d rsv ++ rest ∧ total = (messageFrame w d rsv).length := by
  have hjudged := judged w buf 0
  rw [h] at hjudged
  cases hjudged with
  | @accepted cat hcat hmax hall hok =>
    generalize hlen : candidateLen w buf 0 = n at hmax hall hok ⊢
    rw [candidateLen] at hlen
    cases hvar : candidateVar w buf 0 with
    | standard =>
      simp only [hvar, headLength, trailerLength, Nat.zero_add] at hlen hall hok ⊢
      obtain ⟨hdr, dst, src, len, payload, crc, rest, rfl, rfl⟩ := exists_standardFrame (n := n) hsof (by omega)
      obtain ⟨hh, hl, hcrc, hdec⟩ :=
        standardFrame_readBack w cat (priOf w (headerPri w.hdr hdr)) hdr dst src len payload crc rest
      rw [candidateVar, hh] at hvar
      rw [hh] at hcat ⊢
      rw [hcrc, beq_iff_eq] at hok
      have hframe := messageFrame_eq_standardFrame hwf hcat hvar (hl ▸ hlen).symm hok
      rw [hdec]
      refine ⟨by simpa [Decoded.wf] using hmax, _, rest, congrArg (· ++ rest) hframe.symm, ?_⟩
      rw [hframe, length_standardFrame]
      omega
    | compatible =>
      simp only [hvar, headLength, trailerLength, Nat.zero_add] at hlen hall hok ⊢
      obtain ⟨hdr, dst, len, payload, trl, rest, rfl, rfl⟩ := exists_compatibleFrame (n := n) hsof (by omega)
      obtain ⟨hh, hl, hcrc, hdec⟩ :=
        compatibleFrame_readBack w cat (priOf w (headerPri w.hdr hdr)) hdr dst len payload trl rest
      rw [candidateVar, hh] at hvar
      rw [hh] at hcat ⊢
      rw [hcrc, beq_iff_eq] at hok
      have hframe := messageFrame_eq_compatibleFrame hwf hcat hvar (hl ▸ hlen).symm hok
      rw [hdec]
      refine ⟨by simpa [Decoded.wf] using hmax, _, rest, congrArg (· ++ rest) hframe.symm, ?_⟩
      rw [hframe, length_compatibleFrame]
      omega

end

/-- Settles O23: what is accepted is a frame (`eq_messageFrame_of_judge`), and a frame is accepted
(`judge_messageFrame`), both looked at from the marker on. -/
theorem acceptedCandidatesAreExactlyTheFrames : Obligations.AcceptedCandidatesAreExactlyTheFrames := by
  unfold Obligations.AcceptedCandidatesAreExactlyTheFrames
  intro w buf p d total hwf hsof
  have hfront : judge w buf p = judge w (buf.drop p) 0 := (judge_memDrop w buf p 0).symm
  rw [hfront]
  constructor
  · exact eq_messageFrame_of_judge hwf (by rwa [List.getElem?_drop])
  · rintro ⟨hd, rsv, rest, hbuf, rfl⟩
    rw [hbuf]
    exact judge_messageFrame hwf hd rsv rest

end Sys2Proof.Machine
end

section
/-!
SUPPORT. Proofs about the verdicts of 43_assembler.md R123 as they are decided by one byte or changed by one bit:
appended bytes, reserved categories (30_encoding.md R72), long length bytes (R74 (a)), and the frames with one bit
flipped (40_crc.md R86). For the last, a frame is its marker, its body and the trailer of that body (`trailerOf`), and a
flip anywhere behind the marker leaves a trailer that is not the body's (`flipBit_append_trailerOf`).
-/

namespace Sys2Proof.Machine

/-- Settles O22: `judge_append`. -/
theorem verdictsAreStableUnderAppending : Obligations.VerdictsAreStableUnderAppending := by
  unfold Obligations.VerdictsAreStableUnderAppending
  exact fun w buf more p _ hj => judge_append hj

/-! ### Header and length bytes under the default constants -/

/-- The header bytes with a known category (30_encoding.md R78). -/
theorem isSome_catOf_defaultWire : ∀ h : Byte,
    (catOf defaultWire (headerCat defaultWire.hdr h)).isSome = true ↔ h.toNat < 0x40 := by
  decide +kernel

theorem judge_of_reserved {buf : List Byte} {p : Nat} {h : Byte} (hthere : buf[p + 1]? = some h) (hres : 0x40 ≤ h.toNat) :
    judge defaultWire buf p = .reject .unknownFrameCategory := by
  refine judge_of_catOf_none (List.getElem?_eq_some_iff.mp hthere).1 ?_
  rw [byteAt_of_getElem? hthere, ← Option.not_isSome_iff_eq_none, isSome_catOf_defaultWire]
  omega

/-- Settles O24: `judge_of_reserved`; and only a reserved category is rejected as one (`Judged`). -/
theorem reservedCategoriesAreRejectedAtOnce : Obligations.ReservedCategoriesAreRejectedAtOnce := by
  unfold Obligations.ReservedCategoriesAreRejectedAtOnce
  intro buf p h hthere
  refine ⟨judge_of_reserved hthere, fun hknown hj => ?_⟩
  have hjudged := judged defaultWire buf p
  rw [hj] at hjudged
  cases hjudged with
  | unknownCategory hnone =>
    obtain ⟨cat, hcat⟩ := exists_catOf_defaultWire h hknown
    rw [byteAt_of_getElem? hthere, hcat] at hnone
    cases hnone

/-- Settles O25: a length byte above 56 that is there is rejected (`judge_of_maxPayload_lt`), and only such a one is
rejected for its length (`Judged`). -/
theorem lengthsAboveFiftySixAreRejectedAtOnce : Obligations.LengthsAboveFiftySixAreRejectedAtOnce := by
  unfold Obligations.LengthsAboveFiftySixAreRejectedAtOnce
  intro buf p h len hthere hknown hlen
  have hvar : candidateVar defaultWire buf p = variantOfBit (h.getLsbD 3) := by
    rw [candidateVar, byteAt_of_getElem? hthere, varOf_defaultWire]
  have hindex : p + headLength (candidateVar defaultWire buf p) = p + (if h.getLsbD 3 then 4 else 6) + 1 := by
    rw [hvar]
    cases h.getLsbD 3 <;> rfl
  have hcand : candidateLen defaultWire buf p = len.toNat := by
    rw [candidateLen, hindex, Nat.add_sub_cancel, byteAt_of_getElem? hlen]
  constructor
  · intro hlong
    obtain ⟨cat, hcat⟩ := exists_catOf_defaultWire h hknown
    have hend := (List.getElem?_eq_some_iff.mp hlen).1
    exact judge_of_maxPayload_lt (by rwa [byteAt_of_getElem? hthere]) (by omega) (by rwa [hcand])
  · intro hfit hj
    have hjudged := judged defaultWire buf p
    rw [hj] at hjudged
    cases hjudged with
    | tooLong _ hlong =>
      rw [hcand] at hlong
      exact absurd hlong (Nat.not_lt.mpr hfit)

/-! ### The integrity test by body and trailer -/

/-- The trailer of a body (30_encoding.md R62, R63). -/
def trailerOf (w : Wire) (body : List Byte) : Variant → List Byte
  | .standard => serial16 w (crc16 w body)
  | .compatible => [narrowTrailer w body]

theorem length_trailerOf (w : Wire) (body : List Byte) (var : Variant) :
    (trailerOf w body var).length = trailerLength var := by
  cases var
  · exact length_serial16 w _
  · rfl

theorem serial16_eq_iff (w : Wire) (v : BitVec 16) (first second : Byte) :
    [first, second] = serial16 w v ↔ v = read16 w first second := by
  constructor
  · obtain ⟨a, b, hv, rfl⟩ := serial16_eq w v
    rw [hv]
    rintro ⟨⟩
    rfl
  · rintro rfl
    exact (serial16_read16 w first second).symm

/-- The integrity test asks whether the trailer is the body's. -/
theorem integrityOk_iff (w : Wire) (var : Variant) (marker : Byte) (body rest : List Byte) {trailer : List Byte}
    (hlen : trailer.length = trailerLength var) :
    integrityOk w var (marker :: (body ++ trailer) ++ rest) 0 (1 + body.length) = true ↔ trailer = trailerOf w body var := by
  have hbody : slice (marker :: (body ++ trailer) ++ rest) (0 + 1) (1 + body.length) = body :=
    slice_of_eq_append (front := [marker]) (back := trailer ++ rest) (by simp) rfl rfl
  cases var with
  | standard =>
    obtain ⟨t1, t2, rfl⟩ := List.length_eq_two.mp hlen
    have h1 : byteAt (marker :: (body ++ [t1, t2]) ++ rest) (1 + body.length) = t1 :=
      byteAt_of_eq_append (front := marker :: body) (back := t2 :: rest) (by simp) (by simp [Nat.add_comm])
    have h2 : byteAt (marker :: (body ++ [t1, t2]) ++ rest) (1 + body.length + 1) = t2 :=
      byteAt_of_eq_append (front := marker :: (body ++ [t1])) (back := rest) (by simp) (by simp [Nat.add_comm])
    simp only [integrityOk, hbody, h1, h2, beq_iff_eq, trailerOf, serial16_eq_iff]
  | compatible =>
    obtain ⟨t, rfl⟩ := List.length_eq_one_iff.mp hlen
    have h1 : byteAt (marker :: (body ++ [t]) ++ rest) (1 + body.length) = t :=
      byteAt_of_eq_append (front := marker :: body) (back := rest) (by simp) (by simp [Nat.add_comm])
    simp only [integrityOk, hbody, h1, beq_iff_eq, trailerOf, List.singleton_inj]
    exact eq_comm

/-! ### Flips of one bit -/

@[simp] theorem length_flipBit (m : List Byte) (k i : Nat) : (flipBit m k i).length = m.length :=
  List.length_modify ..

theorem flipBit_cons_succ (b : Byte) (m : List Byte) (k i : Nat) : flipBit (b :: m) (k + 1) i = b :: flipBit m k i :=
  List.modify_succ_cons ..

theorem getElem?_flipBit_self (m : List Byte) (k i : Nat) :
    (flipBit m k i)[k]? = m[k]?.map (· ^^^ ((1 : Byte) <<< i)) := by
  simp [flipBit]

theorem getElem?_flipBit_ne (m : List Byte) {k j : Nat} (h : k ≠ j) (i : Nat) : (flipBit m k i)[j]? = m[j]? := by
  simp [flipBit, h]

theorem flipBit_append_left {m : List Byte} {k : Nat} (hk : k < m.length) (back : List Byte) (i : Nat) :
    flipBit (m ++ back) k i = flipBit m k i ++ back := by
  induction m generalizing k with
  | nil => exact absurd hk (Nat.not_lt_zero k)
  | cons b m ih =>
    cases k with
    | zero => rfl
    | succ k =>
      rw [List.cons_append, flipBit_cons_succ, flipBit_cons_succ, ih (Nat.lt_of_succ_lt_succ hk), List.cons_append]

theorem flipBit_append_right (m back : List Byte) (k i : Nat) :
    flipBit (m ++ back) (m.length + k) i = m ++ flipBit back k i := by
  induction m with
  | nil => rw [List.nil_append, List.nil_append, List.length_nil, Nat.zero_add]
  | cons b m ih =>
    rw [List.cons_append, List.length_cons, Nat.add_right_comm, flipBit_cons_succ, ih, List.cons_append]

theorem xor_bit_ne (b : Byte) {i : Nat} (hi : i < 8) : b ^^^ ((1 : Byte) <<< i) ≠ b := by
  intro h
  have hbit : (1 : Byte) <<< i = 0 := (BitVec.xor_right_inj b).mp (h.trans BitVec.xor_zero.symm)
  interval_cases i <;> exact absurd hbit (by decide)

theorem flipBit_ne {m : List Byte} {k i : Nat} (hk : k < m.length) (hi : i < 8) : flipBit m k i ≠ m := by
  intro h
  have hbyte := getElem?_flipBit_self m k i
  rw [h, List.getElem?_eq_getElem hk] at hbyte
  exact xor_bit_ne _ hi (Option.some_inj.mp hbyte).symm

theorem serial16_injective (w : Wire) {u v : BitVec 16} (h : serial16 w u = serial16 w v) : u = v := by
  obtain ⟨first, second, hu, rfl⟩ := serial16_eq w u
  rw [hu, serial16_eq_iff] at h
  exact h.symm

theorem narrow_injective : ∀ u v : BitVec 4, (u.setWidth 8 : Byte) = v.setWidth 8 → u = v := by decide

theorem trailerOf_flipBit_ne {w : Wire} (h16 : w.crc16Poly.getLsbD 0 = true) (h4 : w.crc4Poly.getLsbD 0 = true)
    {body : List Byte} {k i : Nat} (hk : k < body.length) (hi : i < 8) (var : Variant) :
    trailerOf w (flipBit body k i) var ≠ trailerOf w body var := by
  intro h
  cases var with
  | standard => exact crc_flipBit_ne h16 w.crc16Init hk hi (serial16_injective w h)
  | compatible => exact crc_flipBit_ne h4 w.crc4Init hk hi (narrow_injective _ _ (List.singleton_inj.mp h))

/-- A flip in a body or in its trailer leaves a body and a trailer that is not its own. -/
theorem flipBit_append_trailerOf {w : Wire} (h16 : w.crc16Poly.getLsbD 0 = true) (h4 : w.crc4Poly.getLsbD 0 = true)
    {body : List Byte} {var : Variant} {k i : Nat} (hk : k < (body ++ trailerOf w body var).length) (hi : i < 8) :
    ∃ body' trailer', flipBit (body ++ trailerOf w body var) k i = body' ++ trailer' ∧ body'.length = body.length ∧
      trailer'.length = trailerLength var ∧ trailer' ≠ trailerOf w body' var := by
  by_cases hbody : k < body.length
  · exact ⟨_, _, flipBit_append_left hbody _ i, length_flipBit .., length_trailerOf ..,
      (trailerOf_flipBit_ne h16 h4 hbody hi var).symm⟩
  · obtain ⟨j, rfl⟩ := Nat.exists_eq_add_of_le (Nat.not_lt.mp hbody)
    rw [List.length_append] at hk
    exact ⟨_, _, flipBit_append_right body _ j i, rfl, (length_flipBit ..).trans (length_trailerOf ..),
      flipBit_ne (by omega) hi⟩

/-! ### Encoded frames -/

/-- The body of the frame ENCODE writes (42_encoder.md R101). -/
def encodedBody (cfg : Config) (cat : Category) (var : Variant) (pri : Priority) (dst : Addr) (payload : List Byte) :
    List Byte :=
  match var with
  | .standard =>
    standardBody cfg.wire (headerByte cfg.wire cat var pri) dst cfg.localAddr (lengthByte payload) payload
  | .compatible => compatibleBody cfg.wire (headerByte cfg.wire cat var pri) dst (lengthByte payload) payload

section

variable (cfg : Config) (cat : Category) (var : Variant) (pri : Priority) (dst : Addr) (payload : List Byte)

theorem frameBytes_eq_encodedBody :
    frameBytes cfg cat var pri dst payload = cfg.wire.sof ::
      (encodedBody cfg cat var pri dst payload ++ trailerOf cfg.wire (encodedBody cfg cat var pri dst payload) var) := by
  cases var <;> rfl

theorem length_encodedBody :
    1 + (encodedBody cfg cat var pri dst payload).length = headLength var + payload.length := by
  cases var <;> simp [encodedBody, standardBody, compatibleBody, headLength] <;> omega

theorem getElem?_encodedBody_header :
    (encodedBody cfg cat var pri dst payload)[0]? = some (headerByte cfg.wire cat var pri) := by
  cases var <;> rfl

theorem getElem?_encodedBody_length :
    (encodedBody cfg cat var pri dst payload)[headLength var - 2]? = some (lengthByte payload) := by
  obtain ⟨d1, d2, hd, -⟩ := serial16_eq cfg.wire dst
  obtain ⟨s1, s2, hs, -⟩ := serial16_eq cfg.wire cfg.localAddr
  cases var <;> simp [encodedBody, standardBody, compatibleBody, headLength, hd, hs]

end

/-- With the default wire constants a candidate of a frame's shape whose header byte still has the frame's variant, whose
length byte still counts its payload and whose trailer is not its body's is rejected. -/
theorem judge_isReject_of_wrong_trailer {var : Variant} {body trailer rest : List Byte} {h len marker : Byte}
    (hhdr : (body ++ trailer)[0]? = some h) (hvar : h.getLsbD 3 = variantBit var)
    (hlen : (body ++ trailer)[headLength var - 2]? = some len) (hmax : len.toNat ≤ maxPayload)
    (hbody : 1 + body.length = headLength var + len.toNat) (htrailer : trailer.length = trailerLength var)
    (hwrong : trailer ≠ trailerOf defaultWire body var) :
    (judge defaultWire (marker :: (body ++ trailer) ++ rest) 0).isReject = true := by
  have hindex : headLength var - 1 = headLength var - 2 + 1 := by cases var <;> rfl
  have there {j : Nat} {b : Byte} (hj : (body ++ trailer)[j]? = some b) :
      (marker :: (body ++ trailer) ++ rest)[0 + (j + 1)]? = some b := by
    rw [Nat.zero_add, List.cons_append, List.getElem?_cons_succ,
      List.getElem?_append_left (List.getElem?_eq_some_iff.mp hj).1, hj]
  by_cases hknown : h.toNat < 0x40
  · have hend : ∃ last, (marker :: (body ++ trailer) ++ rest)[0 + headLength var + len.toNat + trailerLength var - 1]? =
        some last := by
      have hpos : 0 < trailerLength var := by cases var <;> decide
      refine ⟨_, List.getElem?_eq_getElem ?_⟩
      simp only [List.length_cons, List.length_append]
      omega
    obtain ⟨last, hlast⟩ := hend
    have hreject := (judge_complete_defaultWire var (there hhdr) hknown hvar
      (by rw [Nat.zero_add, hindex]; simpa using there hlen) hmax hlast).2
    rw [hreject]
    · rfl
    · rw [Nat.zero_add, ← hbody]
      exact mt (integrityOk_iff defaultWire var marker body rest htrailer).mp hwrong
  · rw [judge_of_reserved (there hhdr) (Nat.not_lt.mp hknown)]
    rfl

/-- The variant bit of an encoded header byte (30_encoding.md R64). -/
theorem headerByte_variantBit (cat : Category) (var : Variant) (pri : Priority) :
    (headerByte defaultWire cat var pri).getLsbD 3 = variantBit var := by
  cases cat <;> cases var <;> cases pri <;> rfl

theorem getLsbD_xor_bit_ne (b : Byte) {i j : Nat} (h : i ≠ j) : (b ^^^ ((1 : Byte) <<< i)).getLsbD j = b.getLsbD j := by
  have hbit : ((1 : Byte) <<< i).getLsbD j = false := by
    rw [BitVec.getLsbD_shiftLeft]
    by_cases hlt : j < i
    · simp [hlt]
    · have hne : j - i ≠ 0 := by omega
      simp [BitVec.getLsbD_one, hne]
  rw [BitVec.getLsbD_xor, hbit, Bool.xor_false]

/-- With the default wire constants a frame with one bit behind its marker flipped, neither the variant bit nor one of the
length byte, is rejected. -/
theorem judge_isReject_of_flipBit {var : Variant} {body : List Byte} {hdr len : Byte} {k i : Nat}
    (hhdr : body[0]? = some hdr) (hvar : hdr.getLsbD 3 = variantBit var) (hlen : body[headLength var - 2]? = some len)
    (hmax : len.toNat ≤ maxPayload) (hbody : 1 + body.length = headLength var + len.toNat)
    (hk : k < (body ++ trailerOf defaultWire body var).length) (hi : i < 8) (hvariantBit : ¬(k = 0 ∧ i = 3))
    (hlengthByte : k ≠ headLength var - 2) (marker : Byte) (rest : List Byte) :
    (judge defaultWire (marker :: flipBit (body ++ trailerOf defaultWire body var) k i ++ rest) 0).isReject = true := by
  have there {j : Nat} {b : Byte} (hj : body[j]? = some b) : (body ++ trailerOf defaultWire body var)[j]? = some b := by
    rw [List.getElem?_append_left (List.getElem?_eq_some_iff.mp hj).1, hj]
  have hhdr' : ∃ h, (flipBit (body ++ trailerOf defaultWire body var) k i)[0]? = some h ∧ h.getLsbD 3 = variantBit var := by
    by_cases hk0 : k = 0
    · subst hk0
      refine ⟨_, by rw [getElem?_flipBit_self, there hhdr]; rfl, ?_⟩
      rw [getLsbD_xor_bit_ne _ (fun hi3 => hvariantBit ⟨rfl, hi3⟩), hvar]
    · exact ⟨hdr, by rw [getElem?_flipBit_ne _ hk0, there hhdr], hvar⟩
  have hlen' := (getElem?_flipBit_ne _ hlengthByte i).trans (there hlen)
  obtain ⟨h, hh, hvar'⟩ := hhdr'
  obtain ⟨body', trailer', hflip, hbody', htrailer', hwrong⟩ := flipBit_append_trailerOf odd_crc16Poly odd_crc4Poly hk hi
  rw [hflip] at hh hlen' ⊢
  exact judge_isReject_of_wrong_trailer hh hvar' hlen' hmax (hbody' ▸ hbody) htrailer' hwrong

/-- Settles O28: a flip in the marker gives another byte (`xor_bit_ne`); a flip behind it leaves a trailer that is not its
body's, and with variant bit and length byte as they were the candidate is rejected (`judge_isReject_of_flipBit`). -/
theorem singleBitFlipsOfAFrameAreRejected : Obligations.SingleBitFlipsOfAFrameAreRejected := by
  unfold Obligations.SingleBitFlipsOfAFrameAreRejected
  intro cfg cat var pri dst payload f rest k i hwire henc hk hi
  obtain ⟨hfit, rfl⟩ := encodeFrame_eq_ok_iff.mp henc
  have hhdr := getElem?_encodedBody_header cfg cat var pri dst payload
  rw [frameBytes_eq_encodedBody, hwire] at hk ⊢
  rw [hwire] at hhdr
  cases k with
  | zero =>
    refine ⟨fun _ h => ?_, fun h => absurd rfl h⟩
    exact xor_bit_ne 0xA5 hi (Option.some_inj.mp h)
  | succ k =>
    refine ⟨nofun, fun _ hvariantBit hlengthByte => ?_⟩
    rw [flipBit_cons_succ]
    have hlen := toNat_lengthByte hfit
    refine judge_isReject_of_flipBit hhdr (headerByte_variantBit cat var pri)
      (getElem?_encodedBody_length cfg cat var pri dst payload) (by rwa [hlen])
      (by rw [hlen]; exact length_encodedBody cfg cat var pri dst payload) (Nat.lt_of_succ_lt_succ hk) hi
      (fun h => hvariantBit ⟨congrArg (· + 1) h.1, h.2⟩) ?_ _ rest
    rintro rfl
    exact hlengthByte (by cases var <;> rfl)

end Sys2Proof.Machine
end

section
/-!
SUPPORT. Proofs about scanning and draining, 43_assembler.md sections 2 to 4. A scan is followed by the relation
`ScanEnds`: what one that found no message keeps is at rest (`ScanEnds.quiescent`), and the bytes before the first
marker that is not rejected do not count (`ScanEnds.of_rejected`). Repeated PROCESS of nothing is the relation `Drains`
(`feed_of_drains`).
-/

namespace Sys2Proof.Machine

section

variable {w : Wire} {buf kept bytes : List Byte} {pos i : Nat} {message : Option Decoded}

/-! ### What a scan keeps -/

/-- Every scan ends (43_assembler.md R127). -/
theorem exists_scanEnds (w : Wire) (buf : List Byte) (pos : Nat) : ∃ message kept, ScanEnds w buf pos message kept :=
  ⟨_, _, scanEnds_scan (Nat.lt_succ_self _)⟩

/-- A scan keeps at most the bytes from its position on. -/
theorem ScanEnds.length_kept_le (h : ScanEnds w buf pos message kept) : kept.length ≤ buf.length - pos := by
  induction h with
  | unmarked => rw [length_memDrop]
  | waiting hi | accepted hi =>
    have hpos := hi.from_pos
    rw [length_memDrop]
    omega
  | resumed hi _ _ ih =>
    have hpos := hi.from_pos
    omega

/-- A scan that yields a message takes off at least the six bytes of the shortest frame. -/
theorem ScanEnds.length_kept_of_some {d : Decoded} (h : ScanEnds w buf pos message kept) (hd : message = some d) :
    kept.length + 6 ≤ buf.length := by
  induction h with
  | unmarked | waiting => cases hd
  | accepted _ hj =>
    obtain ⟨hsix, -, hend⟩ := judge_accept_bounds hj
    rw [length_memDrop]
    omega
  | resumed _ _ _ ih => exact ih hd

/-- A buffer with no marker is kept by its scan. -/
theorem scanEnds_of_markerFree (h : MarkerFree w buf) : ScanEnds w buf 0 none buf :=
  .unmarked (pos := 0) fun _ _ hsof => h (List.mem_of_getElem? hsof)

/-- A buffer that begins with an incomplete candidate is kept by its scan. -/
theorem scanEnds_of_incomplete (hsof : buf[0]? = some w.sof) (hj : judge w buf 0 = .incomplete) :
    ScanEnds w buf 0 none buf :=
  .waiting (i := 0) ⟨le_rfl, hsof, fun j _ hj => absurd hj (Nat.not_lt_zero j)⟩ hj

theorem markerFree_memDrop (h : ∀ i, pos ≤ i → buf[i]? ≠ some w.sof) : MarkerFree w (memDrop buf pos) := by
  intro hmem
  obtain ⟨j, hj⟩ := List.mem_iff_getElem?.mp hmem
  rw [memDrop, List.getElem?_drop] at hj
  exact h _ (Nat.le_add_right pos j) hj

/-- What a scan without a message keeps is at rest (43_assembler.md R133). -/
theorem ScanEnds.quiescent (h : ScanEnds w buf pos message kept) (hnone : message = none) : Quiescent w kept := by
  induction h with
  | unmarked hfree => exact .inl (markerFree_memDrop hfree)
  | @waiting pos i hi hj =>
    have hfront : judge w (memDrop buf i) 0 = .incomplete := by rw [judge_memDrop]; exact hj
    refine .inr ⟨?_, Nat.lt_of_not_le fun hlong => judge_ne_incomplete (by rwa [Nat.zero_add]) hfront, hfront⟩
    rw [memDrop, List.head?_drop, hi.marker]
  | accepted => cases hnone
  | resumed _ _ _ ih => exact ih hnone

/-- A buffer at rest is kept by its scan. -/
theorem scanEnds_of_quiescent (h : Quiescent w buf) : ScanEnds w buf 0 none buf := by
  obtain hfree | ⟨hsof, -, hj⟩ := h
  · exact scanEnds_of_markerFree hfree
  · exact scanEnds_of_incomplete (by rwa [← List.head?_eq_getElem?]) hj

/-- Rejected markers before a marker do not count (43_assembler.md R125). -/
theorem ScanEnds.of_rejected {pos : Nat} (hle : pos ≤ i) (hsof : buf[i]? = some w.sof)
    (hrej : ∀ j, pos ≤ j → j < i → buf[j]? = some w.sof → (judge w buf j).isReject = true)
    (h : ScanEnds w buf i message kept) : ScanEnds w buf pos message kept := by
  cases hf : findMarker w buf pos with
  | none => exact absurd hsof (findMarker_eq_none_iff.mp hf i hle)
  | some j =>
    have hj := firstMarker_of_findMarker hf
    obtain hlt | rfl | hgt := Nat.lt_trichotomy j i
    · cases hv : judge w buf j with
      | reject reason =>
        have hpos := hj.from_pos
        exact .resumed hj hv (ScanEnds.of_rejected (pos := j + 1) hlt hsof (fun k hk => hrej k (by omega)) h)
      | incomplete | accept => exact absurd (hrej j hj.from_pos hlt hj.marker) (by rw [hv]; exact Bool.false_ne_true)
    · exact h.of_firstMarker hj
    · exact absurd hsof (hj.least i hle hgt)
termination_by i - pos

/-- Garbage whose markers are rejected does not count (43_assembler.md R137 (a)). -/
theorem ScanEnds.of_garbage {g tail : List Byte} (hsof : tail[0]? = some w.sof)
    (hrej : ∀ j, j < g.length → (g ++ tail)[j]? = some w.sof → (judge w (g ++ tail) j).isReject = true)
    (h : ScanEnds w tail 0 message kept) : ScanEnds w (g ++ tail) 0 message kept := by
  refine ScanEnds.of_rejected (Nat.zero_le g.length) ?_ (fun j _ => hrej j) ?_
  · rwa [List.getElem?_append_right le_rfl, Nat.sub_self]
  · exact ScanEnds.of_memDrop (n := g.length) (by rwa [memDrop, List.drop_left])

/-- A scan keeps a suffix of the buffer (43_assembler.md R126). -/
theorem ScanEnds.exists_kept_eq_drop (h : ScanEnds w buf pos message kept) (hpos : pos ≤ buf.length) :
    ∃ n, n ≤ buf.length ∧ kept = buf.drop n := by
  induction h with
  | unmarked => exact ⟨_, hpos, rfl⟩
  | waiting hi => exact ⟨_, hi.lt_length.le, rfl⟩
  | accepted _ hj => exact ⟨_, (judge_accept_bounds hj).2.2, rfl⟩
  | resumed hi _ _ ih => exact ih hi.lt_length

/-- A scan that keeps everything found no marker or an incomplete candidate at the front. -/
theorem ScanEnds.markerFree_or_incomplete (h : ScanEnds w buf 0 message kept) (hkept : kept.length = buf.length) :
    MarkerFree w buf ∨ judge w buf 0 = .incomplete := by
  cases h with
  | unmarked hfree => exact .inl (markerFree_memDrop hfree)
  | @waiting _ i hi hj =>
    have hlt := hi.lt_length
    rw [length_memDrop] at hkept
    obtain rfl : i = 0 := by omega
    exact .inr hj
  | accepted hi hj =>
    have hshort := (ScanEnds.accepted hi hj).length_kept_of_some rfl
    omega
  | resumed hi _ hrest =>
    have hshort := hrest.length_kept_le
    have hlt := hi.lt_length
    omega

/-! ### Draining -/

/-- Every buffer can be drained, and gives at most one message for six bytes (43_assembler.md R133). -/
theorem exists_drains (w : Wire) (buf : List Byte) :
    ∃ ds last, 6 * ds.length ≤ buf.length ∧ Drains w buf ds last := by
  obtain ⟨_ | d, kept, hends⟩ := exists_scanEnds w buf 0
  · exact ⟨[], kept, Nat.zero_le _, .done hends⟩
  · have hshort := hends.length_kept_of_some rfl
    obtain ⟨ds, last, hlen, hdrains⟩ := exists_drains w kept
    exact ⟨d :: ds, last, by simp only [List.length_cons]; omega, .yield hends hdrains⟩
termination_by buf.length

/-- PROCESS of nothing, again and again, drains the buffer. -/
theorem feed_of_drains {cfg : Config} {ds : List Decoded} {last : List Byte} (h : Drains cfg.wire buf ds last)
    (hfit : buf.length ≤ cfg.cap) :
    feed cfg buf (List.replicate (ds.length + 1) []) = (ds.map .message ++ [.noMessage], last) := by
  induction h with
  | done hends =>
    have ha := assemble_of_scanEnds (bytes := []) (by simpa using hfit) (by rwa [List.append_nil])
    simp [feed_cons, ha, scanResult, feed]
  | yield hends _ ih =>
    have ha := assemble_of_scanEnds (bytes := []) (by simpa using hfit) (by rwa [List.append_nil])
    have hkept := hends.length_kept_le
    rw [List.length_cons, List.replicate_succ, feed_cons, ha, ih (by omega)]
    rfl

/-- A stream into an empty buffer is like that stream buffered. -/
theorem feed_nil_cons {cfg : Config} {stream : List Byte} (hfit : stream.length ≤ cfg.cap) (pieces : List (List Byte)) :
    feed cfg [] (stream :: pieces) = feed cfg stream ([] :: pieces) := by
  have ha : assemble cfg [] stream = assemble cfg stream [] := by
    simp [assemble, memAppend, Nat.not_lt.mpr hfit]
  rw [feed_cons, feed_cons, ha]

theorem feed_stream_of_drains {cfg : Config} {stream : List Byte} {ds : List Decoded} {last : List Byte}
    (h : Drains cfg.wire stream ds last) (hfit : stream.length ≤ cfg.cap) :
    feed cfg [] (stream :: List.replicate ds.length []) = (ds.map .message ++ [.noMessage], last) := by
  rw [feed_nil_cons hfit, ← List.replicate_succ]
  exact feed_of_drains h hfit

/-- A buffer at rest stays as it is. -/
theorem feed_of_quiescent {cfg : Config} (h : Quiescent cfg.wire buf) (hfit : buf.length ≤ cfg.cap) (n : Nat) :
    feed cfg buf (List.replicate n []) = (List.replicate n .noMessage, buf) := by
  induction n with
  | zero => rfl
  | succ n ih =>
    have ha := assemble_of_scanEnds (bytes := []) (by simpa using hfit)
      (by rw [List.append_nil]; exact scanEnds_of_quiescent h)
    rw [List.replicate_succ, feed_cons, ha, ih]
    rfl

/-- PROCESS of bytes that fit, by their scan. -/
theorem exec_process_of_scanEnds {s : State} (hfit : s.buf.length + bytes.length ≤ s.cfg.cap)
    (h : ScanEnds s.cfg.wire (s.buf ++ bytes) 0 message kept) :
    exec (.process bytes) s = .next { s with buf := kept, response := some (scanResult message) } := by
  rw [exec_process, assemble_of_scanEnds hfit h]

/-- PROCESS is refused whole or is a scan (43_assembler.md R120, R121). -/
theorem exec_process_cases {s t : State} (h : exec (.process bytes) s = .next t) :
    (s.cfg.cap < s.buf.length + bytes.length ∧ t = { s with response := some (.err .bufferFull) }) ∨
    ∃ message kept, s.buf.length + bytes.length ≤ s.cfg.cap ∧ ScanEnds s.cfg.wire (s.buf ++ bytes) 0 message kept ∧
      t = { s with buf := kept, response := some (scanResult message) } := by
  rw [exec_process] at h
  cases h
  obtain ⟨hfull, ha⟩ | ⟨message, kept, hfit, hends, ha⟩ := assemble_ends s.cfg s.buf bytes
  · exact .inl ⟨hfull, by rw [ha]⟩
  · exact .inr ⟨message, kept, hfit, hends, by rw [ha]⟩

end

/-! ### The obligations -/

/-- Settles O21: a scan ends in one way (`scanEnds_scan`), with any fuel that is enough (`ScanEnds.scan_eq`). -/
theorem scanIsTheSameWithAnyEnoughFuel : Obligations.ScanIsTheSameWithAnyEnoughFuel := by
  unfold Obligations.ScanIsTheSameWithAnyEnoughFuel
  intro w buf pos n m _ hn hm
  exact (scanEnds_scan hm).scan_eq hn

/-- Settles O31: what a scan without a message keeps is at rest (`ScanEnds.quiescent`), and a buffer at rest is kept
(`scanEnds_of_quiescent`). -/
theorem noneIsQuiescent : Obligations.NoneIsQuiescent := by
  unfold Obligations.NoneIsQuiescent
  intro s t newBytes h hresponse
  obtain ⟨-, rfl⟩ | ⟨message, kept, hfit, hends, rfl⟩ := exec_process_cases h
  · cases hresponse
  cases message with
  | some d => cases hresponse
  | none =>
    have hrest := hends.quiescent rfl
    have hkept := hends.length_kept_le
    rw [List.length_append] at hkept
    refine ⟨exec_process_of_scanEnds ?_ ?_, hrest⟩
    · simp only [List.length_nil]
      omega
    · rw [List.append_nil]
      exact scanEnds_of_quiescent hrest

/-- Settles O32: `exists_drains` and `feed_of_drains`. -/
theorem drainingEndsInNone : Obligations.DrainingEndsInNone := by
  unfold Obligations.DrainingEndsInNone
  intro cfg buf hfit
  obtain ⟨ds, last, hlen, hdrains⟩ := exists_drains cfg.wire buf
  exact ⟨ds, last, hlen, feed_of_drains hdrains hfit⟩

/-- Frames one behind the other drain into their messages. -/
theorem drains_frames {w : Wire} (hwf : wireWf w = true) {frames : List (Decoded × Bool)}
    (hframes : ∀ x ∈ frames, x.1.wf = true) :
    Drains w (frames.flatMap (fun x => messageFrame w x.1 x.2)) (frames.map (·.1)) [] := by
  induction frames with
  | nil => exact .done (scanEnds_of_markerFree List.not_mem_nil)
  | cons x frames ih =>
    obtain ⟨hx, hrest⟩ := List.forall_mem_cons.mp hframes
    exact .yield (scanEnds_messageFrame hwf hx x.2 _) (ih hrest)

/-- Settles O35: `drains_frames`. -/
theorem framesAreYieldedInStreamOrder : Obligations.FramesAreYieldedInStreamOrder := by
  unfold Obligations.FramesAreYieldedInStreamOrder
  intro cfg frames hwf hframes hfit
  have hfeed := feed_stream_of_drains (drains_frames hwf hframes) hfit
  rwa [List.length_map, List.map_map] at hfeed

/-- Settles O36: the rejected markers of the garbage do not count (`ScanEnds.of_rejected`), and behind it stand two
frames. -/
theorem resynchronisationLosesNoFrame : Obligations.ResynchronisationLosesNoFrame := by
  unfold Obligations.ResynchronisationLosesNoFrame
  intro cfg g a b ca cb va vb pa pb da db xa xb hwf ha hb hfit hrej src
  obtain ⟨hfitA, rfl⟩ := encodeFrame_eq_ok_iff.mp ha
  obtain ⟨hfitB, rfl⟩ := encodeFrame_eq_ok_iff.mp hb
  rw [frameBytes_eq_messageFrame, frameBytes_eq_messageFrame, List.append_assoc] at hfit hrej ⊢
  have hsof := (firstMarker_messageFrame cfg.wire (encodedMessage cfg ca va pa da xa) false
    (messageFrame cfg.wire (encodedMessage cfg cb vb pb db xb) false)).marker
  have hfirst := ScanEnds.of_garbage hsof hrej
    (scanEnds_messageFrame hwf (encodedMessage_wf hfitA cfg ca va pa da) false _)
  have hsecond := scanEnds_messageFrame hwf (encodedMessage_wf hfitB cfg cb vb pb db) false []
  rw [List.append_nil] at hsecond
  have hdrains := Drains.yield hfirst (.yield hsecond (.done (scanEnds_of_markerFree List.not_mem_nil)))
  have hsrc (v : Variant) (c : Category) (p : Priority) (d : Addr) (x : List Byte) :
      Decoded.mk c v p d (src v) x = encodedMessage cfg c v p d x := by cases v <;> rfl
  rw [hsrc, hsrc]
  exact feed_stream_of_drains hdrains hfit

/-- Settles O37: the scan ends at the first marker that is not rejected (`ScanEnds.of_rejected`), and what it keeps is at
rest. -/
theorem incompleteCandidateHoldsBackWhatFollows : Obligations.IncompleteCandidateHoldsBackWhatFollows := by
  unfold Obligations.IncompleteCandidateHoldsBackWhatFollows
  intro cfg stream i n hfit hsof hrej hj
  have hself : FirstMarker cfg.wire stream i i := ⟨le_rfl, hsof, fun j hle hlt => absurd hlt (Nat.not_lt.mpr hle)⟩
  have hends := ScanEnds.of_rejected (Nat.zero_le i) hsof (fun j _ => hrej j) (.waiting hself hj)
  have ha := assemble_of_scanEnds (buf := []) (by rwa [List.length_nil, Nat.zero_add]) hends
  have hrest := feed_of_quiescent (hends.quiescent rfl) (hends.length_kept_le.trans hfit) n
  rw [feed_cons, ha, hrest]
  rfl

/-- Settles O38: bytes without a marker are kept by their scan (`scanEnds_of_markerFree`); bytes that do not fit are
refused whole. -/
theorem markerFreeBytesAreKeptUntilReset : Obligations.MarkerFreeBytesAreKeptUntilReset := by
  unfold Obligations.MarkerFreeBytesAreKeptUntilReset
  intro s newBytes hfree
  refine ⟨fun hfit => exec_process_of_scanEnds hfit (scanEnds_of_markerFree hfree), fun hfull => ⟨fun hnew => ?_, ?_, rfl⟩⟩
  · have hpos := List.length_pos_iff.mpr hnew
    exact congrArg Host.Outcome.next (State.receive_of_lt (by omega))
  · have hkept := scanEnds_of_markerFree fun hmem => hfree (List.mem_append_left newBytes hmem)
    exact exec_process_of_scanEnds (bytes := []) hfull.le (by rwa [List.append_nil])

/-- Settles O39: at least 65 bytes are judged (`judge_ne_incomplete`); a scan that keeps everything then found no
marker. -/
theorem fullBufferWithAMarkerMakesProgress : Obligations.FullBufferWithAMarkerMakesProgress := by
  unfold Obligations.FullBufferWithAMarkerMakesProgress
  refine ⟨fun w buf hlong => judge_ne_incomplete (by rwa [Nat.zero_add]), fun s t hinv hfull h hbuf => ?_⟩
  obtain ⟨hover, -⟩ | ⟨message, kept, -, hends, rfl⟩ := exec_process_cases h
  · exact absurd hover (Nat.not_lt.mpr hfull.le)
  · rw [List.append_nil] at hends
    obtain hfree | hj := hends.markerFree_or_incomplete (congrArg List.length hbuf)
    · exact hfree
    · exact absurd hj (judge_ne_incomplete (by rw [Nat.zero_add, hfull]; exact hinv.capacity))

/-- Settles O40: a reception reads the capacity and the wire constants alone. -/
theorem processDoesNotReadAddressOrTable : Obligations.ProcessDoesNotReadAddressOrTable := by
  unfold Obligations.ProcessDoesNotReadAddressOrTable
  intro s t newBytes a c h
  rw [exec_process] at h ⊢
  cases h
  rfl

end Sys2Proof.Machine
end

section
/-!
SUPPORT. Proofs about the rows of format HDR (log entry 5): each is one reception (`receive_received`) of the frame it
lays out, which under the default constants is its encoding, and yields its message when length byte and trailer are
right.
-/

namespace Sys2Proof.Machine

/-! ### Receptions -/

/-- A reception is one of those the rule allows: PROCESS by another name (43_assembler.md R120). -/
theorem State.receive_received (s : State) (bytes : List Byte) : Received s bytes (s.receive bytes) := by
  obtain ⟨t, ht, hreceived⟩ := processFollowsTheScanLoop s bytes
  cases ht
  exact hreceived

theorem State.receive_of_scanEnds {s : State} {bytes kept : List Byte} {message : Option Decoded} (hbuf : s.buf = [])
    (hfit : bytes.length ≤ s.cfg.cap) (h : ScanEnds s.cfg.wire bytes 0 message kept) :
    s.receive bytes = { s with buf := kept, response := some (scanResult message) } := by
  have hexec := exec_process_of_scanEnds (s := s) (bytes := bytes) (kept := kept) (message := message)
    (by rwa [hbuf, List.length_nil, Nat.zero_add]) (by rwa [hbuf])
  exact Host.Outcome.next.inj hexec

/-- Settles O41: each row is one reception (`State.receive_received`). -/
theorem frameRowsAreReceptionsOfTheirBytes : Obligations.FrameRowsAreReceptionsOfTheirBytes := by
  unfold Obligations.FrameRowsAreReceptionsOfTheirBytes
  refine ⟨fun s pri rsv dst src len payload k => ?_, fun s pri rsv dst len payload trl => ?_,
    fun s cc ccc var pri rsv => ?_⟩
  · exact ⟨⟨_, rfl, s.receive_received _⟩, ⟨_, rfl, s.receive_received _⟩, ⟨_, rfl, s.receive_received _⟩,
      ⟨_, rfl, s.receive_received _⟩⟩
  · exact ⟨⟨_, rfl, s.receive_received _⟩, ⟨_, rfl, s.receive_received _⟩, ⟨_, rfl, s.receive_received _⟩,
      ⟨_, rfl, s.receive_received _⟩⟩
  · exact ⟨⟨_, rfl, s.receive_received _⟩, ⟨_, rfl, s.receive_received _⟩⟩

/-! ### Rows under the default constants -/

/-- Under the default constants a header byte is packed as the opcode table writes it (30_encoding.md R64). -/
theorem packHeader_defaultWire (code : BitVec 4) (var : Variant) (pri : Priority) (rsv : Bool) :
    packHeader defaultWire.hdr code (varCode defaultWire var) (priCode defaultWire pri) rsv = tableHeader code var pri rsv := by
  revert code
  cases var <;> cases pri <;> cases rsv <;> decide

theorem catCode_defaultWire (cat : Category) : catCode defaultWire cat = (categoryBits cat).setWidth 4 := by
  cases cat <;> rfl

theorem standardArrival_defaultWire (cat : Category) (pri : Priority) (rsv : Bool) (dst src : Addr) (len : Byte)
    (payload : List Byte) (crc : BitVec 16) :
    standardArrival defaultWire cat pri rsv dst src len payload crc = encodeStandard cat pri rsv dst src len payload crc := by
  have hhdr := packHeader_defaultWire (catCode defaultWire cat) .standard pri rsv
  rw [catCode_defaultWire] at hhdr
  rw [encodeStandard, ← hhdr, standardArrival, catCode_defaultWire]
  rfl

theorem compatibleArrival_defaultWire (cat : Category) (pri : Priority) (rsv : Bool) (dst : Addr) (len : Byte)
    (payload : List Byte) (trl : Byte) :
    compatibleArrival defaultWire cat pri rsv dst len payload trl = encodeCompatible cat pri rsv dst len payload trl := by
  have hhdr := packHeader_defaultWire (catCode defaultWire cat) .compatible pri rsv
  rw [catCode_defaultWire] at hhdr
  rw [encodeCompatible, ← hhdr, compatibleArrival, catCode_defaultWire]
  rfl

theorem reservedArrival_defaultWire (code : BitVec 4) (var : Variant) (pri : Priority) (rsv : Bool) :
    reservedArrival defaultWire code var pri rsv = [0xA5, tableHeader code var pri rsv] := by
  rw [reservedArrival, packHeader_defaultWire]
  rfl

/-- Settles O42: a row receives its arrival, which under the default constants is its encoding. -/
theorem frameRowsUnderDefaultsAreTheirEncoding : Obligations.FrameRowsUnderDefaultsAreTheirEncoding := by
  unfold Obligations.FrameRowsUnderDefaultsAreTheirEncoding
  intro s i hwire himpure hreset hreserved hprocess
  have hrow {arrival : List Byte} (h : arrival = encode i) :
      Host.Outcome.next (s.receive arrival) = exec (.process (encode i)) s := by rw [h]; rfl
  cases i with
  | reset => exact absurd rfl hreset
  | reservedOp7 => exact absurd rfl hreserved
  | process bytes => exact absurd rfl (hprocess bytes)
  | crc4 | crc16 | classify | encode | encodei => cases himpure
  | frameCommandStandard | frameStatusStandard | frameCooperationStandard | frameExtendedStandard =>
    exact hrow (hwire ▸ standardArrival_defaultWire ..)
  | frameCommandCompatible | frameStatusCompatible | frameCooperationCompatible | frameExtendedCompatible =>
    exact hrow (hwire ▸ compatibleArrival_defaultWire ..)
  | frameReservedCat4to7 | frameReservedCat8to15 => exact hrow (hwire ▸ reservedArrival_defaultWire ..)

/-! ### Right frames -/

/-- The frame of a message received into an empty buffer is yielded, and nothing stays (43_assembler.md R135). -/
theorem State.receive_messageFrame {s : State} {d : Decoded} (hwf : wireWf s.cfg.wire = true) (hbuf : s.buf = [])
    (hd : d.wf = true) (rsv : Bool) (hfit : (messageFrame s.cfg.wire d rsv).length ≤ s.cfg.cap) :
    s.receive (messageFrame s.cfg.wire d rsv) = { s with response := some (.message d) } := by
  have hends := scanEnds_messageFrame hwf hd rsv []
  rw [List.append_nil] at hends
  rw [State.receive_of_scanEnds hbuf hfit hends, ← hbuf]
  rfl

/-- The header byte of a frame row as a number (30_encoding.md R64). -/
theorem packHeader_known (cat : Category) (var : Variant) (pri : Priority) (rsv : Bool) :
    packHeader defaultWire.hdr (catCode defaultWire cat) (varCode defaultWire var) (priCode defaultWire pri) rsv =
      BitVec.ofNat 8 (categoryNumber cat * 16 + variantNumber var * 8 + priorityRank pri * 2 + rsv.toNat) := by
  cases cat <;> cases var <;> cases pri <;> cases rsv <;> rfl

section

variable {s : State} {payload : List Byte} (hwire : s.cfg.wire = defaultWire) (hbuf : s.buf = [])
  (hmax : payload.length ≤ maxPayload)

include hwire hbuf hmax

/-- A Standard row with the right length byte and trailer is yielded. -/
theorem State.receive_standardArrival (hfit : 9 + payload.length ≤ s.cfg.cap) (cat : Category) (pri : Priority) (rsv : Bool)
    (dst src : Addr) :
    s.receive (standardArrival s.cfg.wire cat pri rsv dst src (lengthByte payload) payload
      (crc16 defaultWire (standardBody defaultWire
        (BitVec.ofNat 8 (categoryNumber cat * 16 + variantNumber .standard * 8 + priorityRank pri * 2 + rsv.toNat)) dst src
        (lengthByte payload) payload))) =
    { s with response := some (.message ⟨cat, .standard, pri, dst, some src, payload⟩) } := by
  have hd : (Decoded.mk cat .standard pri dst (some src) payload).wf = true := by simpa [Decoded.wf] using hmax
  have hlen : (messageFrame s.cfg.wire ⟨cat, .standard, pri, dst, some src, payload⟩ rsv).length = 9 + payload.length :=
    length_standardFrame ..
  have hreceive := State.receive_messageFrame (hwire ▸ wireWf_defaultWire) hbuf hd rsv (hlen ▸ hfit)
  rw [← packHeader_known cat .standard pri rsv]
  rw [hwire] at hreceive ⊢
  exact hreceive

/-- A Compatible row with the right length byte and trailer is yielded. -/
theorem State.receive_compatibleArrival (hfit : 6 + payload.length ≤ s.cfg.cap) (cat : Category) (pri : Priority)
    (rsv : Bool) (dst : Addr) :
    s.receive (compatibleArrival s.cfg.wire cat pri rsv dst (lengthByte payload) payload
      (narrowTrailer defaultWire (compatibleBody defaultWire
        (BitVec.ofNat 8 (categoryNumber cat * 16 + variantNumber .compatible * 8 + priorityRank pri * 2 + rsv.toNat)) dst
        (lengthByte payload) payload))) =
    { s with response := some (.message ⟨cat, .compatible, pri, dst, none, payload⟩) } := by
  have hd : (Decoded.mk cat .compatible pri dst none payload).wf = true := by simpa [Decoded.wf] using hmax
  have hlen : (messageFrame s.cfg.wire ⟨cat, .compatible, pri, dst, none, payload⟩ rsv).length = 6 + payload.length :=
    length_compatibleFrame ..
  have hreceive := State.receive_messageFrame (hwire ▸ wireWf_defaultWire) hbuf hd rsv (hlen ▸ hfit)
  rw [← packHeader_known cat .compatible pri rsv]
  rw [hwire] at hreceive ⊢
  exact hreceive

end

/-- Settles O43: a row whose length byte and trailer are right is the frame of its message. -/
theorem rightFramesAreYielded : Obligations.RightFramesAreYielded := by
  unfold Obligations.RightFramesAreYielded
  intro s pri rsv dst src payload hwire hbuf hmax hfit len hdr k c yields
  have hstandard (cat : Category) := State.receive_standardArrival hwire hbuf hmax hfit cat pri rsv dst src
  have hcompatible (cat : Category) := State.receive_compatibleArrival hwire hbuf hmax (by omega) cat pri rsv dst
  exact ⟨congrArg _ (hstandard .command), congrArg _ (hstandard .status), congrArg _ (hstandard .cooperation),
    congrArg _ (hstandard .extended), congrArg _ (hcompatible .command), congrArg _ (hcompatible .status),
    congrArg _ (hcompatible .cooperation), congrArg _ (hcompatible .extended)⟩

/-! ### Reserved categories -/

/-- A marker and a reserved header: the scan drops the marker and keeps the header byte, be it a marker itself
(43_assembler.md R125). -/
theorem scanEnds_reserved {h : Byte} (hres : 0x40 ≤ h.toNat) : ScanEnds defaultWire [0xA5, h] 0 none [h] := by
  have hfirst : FirstMarker defaultWire [0xA5, h] 0 0 := ⟨le_rfl, rfl, fun j _ hj => absurd hj (Nat.not_lt_zero j)⟩
  refine .resumed hfirst (judge_of_reserved (h := h) rfl hres) ?_
  by_cases hsof : h = defaultWire.sof
  · subst hsof
    exact ScanEnds.of_memDrop (n := 1) (scanEnds_of_incomplete rfl rfl)
  · exact ScanEnds.of_memDrop (n := 1) (scanEnds_of_markerFree fun hmem => hsof (List.mem_singleton.mp hmem).symm)

/-- The header byte of a reserved row as a number (30_encoding.md R72). -/
theorem tableHeader_toNat (code : BitVec 4) (var : Variant) (pri : Priority) (rsv : Bool) :
    (tableHeader code var pri rsv).toNat = code.toNat * 16 + (variantNumber var * 8 + priorityRank pri * 2 + rsv.toNat) := by
  revert code
  cases var <;> cases pri <;> cases rsv <;> decide

theorem State.receive_reservedArrival {s : State} (hwire : s.cfg.wire = defaultWire) (hbuf : s.buf = [])
    (hcap : 2 ≤ s.cfg.cap) {code : BitVec 4} (hcode : 4 ≤ code.toNat) (var : Variant) (pri : Priority) (rsv : Bool) :
    s.receive (reservedArrival s.cfg.wire code var pri rsv) =
      { s with buf := [tableHeader code var pri rsv], response := some .noMessage } := by
  rw [hwire, reservedArrival_defaultWire]
  have hends := scanEnds_reserved (h := tableHeader code var pri rsv) (by rw [tableHeader_toNat]; omega)
  exact State.receive_of_scanEnds (bytes := [0xA5, _]) hbuf hcap (by rwa [hwire])

/-- Settles O44: `State.receive_reservedArrival`, the header byte as the number of `tableHeader_toNat`. -/
theorem reservedCategoryRowsAreSkipped : Obligations.ReservedCategoryRowsAreSkipped := by
  unfold Obligations.ReservedCategoryRowsAreSkipped
  intro s cc ccc var pri rsv hwire hbuf hcap low
  have hcode4 : ∀ c : BitVec 2, ((1 : BitVec 2) ++ c : BitVec 4).toNat = 4 + c.toNat := by decide
  have hcode8 : ∀ c : BitVec 3, ((1 : BitVec 1) ++ c : BitVec 4).toNat = 8 + c.toNat := by decide
  have hrow (code : BitVec 4) (n : Nat) (hcode : 4 ≤ code.toNat) (hn : n = code.toNat * 16 + low) :
      Host.Outcome.next (s.receive (reservedArrival s.cfg.wire code var pri rsv)) =
        (.next { s with buf := [BitVec.ofNat 8 n], response := some .noMessage } : Host.Outcome State Fault Refusal) := by
    rw [State.receive_reservedArrival hwire hbuf hcap hcode, hn, ← tableHeader_toNat, BitVec.ofNat_toNat,
      BitVec.setWidth_eq]
  constructor
  · exact hrow _ _ (by rw [hcode4]; omega) (by rw [hcode4]; omega)
  · exact hrow _ _ (by rw [hcode8]; omega) (by rw [hcode8]; omega)

/-- Settles O45: the header byte by its fields (`headerByte_defaultWire`), the known ones as in `judge_of_reserved`. -/
theorem headerBytesOfTheDefaultPacking : Obligations.HeaderBytesOfTheDefaultPacking := by
  unfold Obligations.HeaderBytesOfTheDefaultPacking
  refine ⟨fun cat var pri => ?_, isSome_catOf_defaultWire, rfl⟩
  rw [headerByte_defaultWire]
  cases cat <;> cases var <;> cases pri <;> rfl

end Sys2Proof.Machine
end

section
/-!
SUPPORT. Proofs about the machine: the state and the operations (10_state.md, 20_memory.md R44 and R46, 44_system.md,
60_exceptions.md R158 and R164) and what every step keeps. A meaning that gives a next state has one of three ends
(`exec_cases`), and each of them keeps configuration, issued operations and capacity; a step is no operation or one
meaning (`step_cases`).
-/

namespace Sys2Proof.Machine

/-! ### Construction and reset -/

/-- Settles O2: the fields of one literal state. -/
theorem resetStateHoldsTheDefaults : Obligations.ResetStateHoldsTheDefaults := by
  unfold Obligations.ResetStateHoldsTheDefaults
  exact ⟨rfl, rfl, rfl, rfl, rfl⟩

/-- RESET is the emptying of the buffer and the result `Ok` (44_system.md R146). -/
theorem exec_reset (s : State) : exec .reset s = .next ((s.setBuf []).answer .ok) := rfl

/-- Settles O3: `exec_reset`. -/
theorem resetOperationEmptiesTheBufferAndNothingElse : Obligations.ResetOperationEmptiesTheBufferAndNothingElse := by
  unfold Obligations.ResetOperationEmptiesTheBufferAndNothingElse
  exact exec_reset

/-- Settles O58: `reset_wf`, and what `construct` gives is empty and has the capacity it asks for. -/
theorem invariantHoldsAfterConstruction : Obligations.InvariantHoldsAfterConstruction := by
  unfold Obligations.InvariantHoldsAfterConstruction
  refine ⟨⟨reset_wf, by decide⟩, fun cfg t h => ?_⟩
  by_cases hcap : cfg.cap < maxWire
  · rw [construct_of_lt hcap] at h
    cases h
  · rw [construct_of_le (Nat.not_lt.mp hcap)] at h
    cases h
    exact ⟨Nat.zero_le _, Nat.not_lt.mp hcap⟩

/-! ### One operation -/

/-- The result an encoding ends with. -/
def encodingResult : Except Error (List Byte) → Result
  | .ok bytes => .okFrame bytes
  | .error e => .err e

theorem answerEncoding_eq_answer (s : State) (e : Except Error (List Byte)) :
    answerEncoding s e = s.answer (encodingResult e) := by
  cases e <;> rfl

/-- Settles O18: each pure operation answers with a function of the configuration. -/
theorem pureOperationsAreFunctionsOfConfigurationAndOperands :
    Obligations.PureOperationsAreFunctionsOfConfigurationAndOperands := by
  unfold Obligations.PureOperationsAreFunctionsOfConfigurationAndOperands
  intro i hpure
  cases i with
  | crc4 bytes => exact ⟨fun cfg => .okCrc4 (crc4 cfg.wire bytes), fun s => rfl⟩
  | crc16 bytes => exact ⟨fun cfg => .okCrc16 (crc16 cfg.wire bytes), fun s => rfl⟩
  | classify kind => exact ⟨fun cfg => .okPriority (classOf cfg.classTable kind), fun s => rfl⟩
  | encode cat var pri dst payload =>
    exact ⟨fun cfg => encodingResult (encodeFrame cfg cat var pri dst payload),
      fun s => congrArg Host.Outcome.next (answerEncoding_eq_answer s _)⟩
  | encodei cat var kind dst payload =>
    exact ⟨fun cfg => encodingResult (encodeFrame cfg cat var (classOf cfg.classTable kind) dst payload),
      fun s => congrArg Host.Outcome.next (answerEncoding_eq_answer s _)⟩
  | reset | process | reservedOp7 => cases hpure
  | frameCommandStandard | frameStatusStandard | frameCooperationStandard | frameExtendedStandard => cases hpure
  | frameCommandCompatible | frameStatusCompatible | frameCooperationCompatible | frameExtendedCompatible => cases hpure
  | frameReservedCat4to7 | frameReservedCat8to15 => cases hpure

/-- Settles O30: PROCESS is refused whole or keeps a suffix (`ScanEnds.exists_kept_eq_drop`); RESET empties the buffer; a
pure operation changes the result alone. -/
theorem bufferChangesOnlyByAppendingAndDroppingAPrefix : Obligations.BufferChangesOnlyByAppendingAndDroppingAPrefix := by
  unfold Obligations.BufferChangesOnlyByAppendingAndDroppingAPrefix
  refine ⟨fun s t newBytes h => ?_, fun s t h => ?_, fun i s t hpure h => ?_⟩
  · obtain ⟨hfull, rfl⟩ | ⟨message, kept, hfit, hends, rfl⟩ := exec_process_cases h
    · rw [if_pos hfull]
    · rw [if_neg (Nat.not_lt.mpr hfit)]
      exact hends.exists_kept_eq_drop (Nat.zero_le _)
  · rw [exec_reset] at h
    cases h
    rfl
  · obtain ⟨result, hresult⟩ := pureOperationsAreFunctionsOfConfigurationAndOperands i hpure
    rw [hresult] at h
    cases h
    rfl

/-- Settles O54: the arm of the reserved code. -/
theorem reservedOperationCodeIsRefused : Obligations.ReservedOperationCodeIsRefused := by
  unfold Obligations.ReservedOperationCodeIsRefused
  exact fun s => rfl

/-- Settles O55: each arm writes the response and does not read it. -/
theorem noOperationReadsAnEarlierResult : Obligations.NoOperationReadsAnEarlierResult := by
  unfold Obligations.NoOperationReadsAnEarlierResult
  intro i s r
  cases i with
  | encode | encodei => simp only [exec, execEncode, execEncodei, answerEncoding_eq_answer]; rfl
  | reset | crc4 | crc16 | classify | process | reservedOp7 => rfl
  | frameCommandStandard | frameStatusStandard | frameCooperationStandard | frameExtendedStandard => rfl
  | frameCommandCompatible | frameStatusCompatible | frameCooperationCompatible | frameExtendedCompatible => rfl
  | frameReservedCat4to7 | frameReservedCat8to15 => rfl

/-- What every next state of an operation has: a result, and configuration and issued operations as before. -/
theorem exec_frame {i : Instr} {s t : State} (h : exec i s = .next t) :
    (∃ r, t.response = some r) ∧ t.cfg = s.cfg ∧ t.request = s.request := by
  obtain ⟨r, rfl⟩ | rfl | ⟨bytes, rfl⟩ := exec_cases h
  · exact ⟨⟨r, rfl⟩, rfl, rfl⟩
  · exact ⟨⟨.ok, rfl⟩, rfl, rfl⟩
  · exact ⟨⟨_, s.receive_response bytes⟩, rfl, rfl⟩

/-- Every operation but the reserved code has a next state. -/
theorem exists_exec_eq_next {i : Instr} (hi : i ≠ .reservedOp7) (s : State) : ∃ t, exec i s = .next t := by
  cases i with
  | reservedOp7 => exact absurd rfl hi
  | reset | crc4 | crc16 | classify | encode | encodei | process => exact ⟨_, rfl⟩
  | frameCommandStandard | frameStatusStandard | frameCooperationStandard | frameExtendedStandard => exact ⟨_, rfl⟩
  | frameCommandCompatible | frameStatusCompatible | frameCooperationCompatible | frameExtendedCompatible => exact ⟨_, rfl⟩
  | frameReservedCat4to7 | frameReservedCat8to15 => exact ⟨_, rfl⟩

/-- Settles O53: `exists_exec_eq_next` and `exec_frame`. -/
theorem everyOperationIsTotal : Obligations.EveryOperationIsTotal := by
  unfold Obligations.EveryOperationIsTotal
  intro i s hi
  obtain ⟨t, ht⟩ := exists_exec_eq_next hi s
  obtain ⟨⟨r, hr⟩, hcfg, hrequest⟩ := exec_frame ht
  exact ⟨t, r, ht, hr, hcfg, hrequest⟩

/-- Every operation keeps the buffer within its capacity (43_assembler.md R138). -/
theorem exec_keeps_inv {i : Instr} {s t : State} (hinv : s.Inv) (h : exec i s = .next t) : t.Inv := by
  obtain ⟨r, rfl⟩ | rfl | ⟨bytes, rfl⟩ := exec_cases h
  · exact ⟨hinv.memory, hinv.capacity⟩
  · exact ⟨Nat.zero_le _, hinv.capacity⟩
  · exact ⟨assemble_wf hinv.memory bytes, hinv.capacity⟩

/-! ### One step -/

theorem step_of_decode {s : State} {i : Instr} {rest : List Byte} (h : decode s.request = .ok (i, rest)) :
    step s = exec i { s with request := rest } := by
  obtain ⟨hnil, -⟩ | ⟨j, rest', hd, hf⟩ | ⟨e, -, hd, -⟩ := fetch_cases s
  · rw [hnil] at h
    cases h
  · rw [hd] at h
    cases h
    rw [step, hf]
  · rw [hd] at h
    cases h

theorem step_of_decode_error {s : State} {e : DecodeError} (hne : s.request ≠ []) (h : decode s.request = .error e) :
    step s = .refused (.malformedRequest e) := by
  obtain ⟨hnil, -⟩ | ⟨j, rest', hd, -⟩ | ⟨e', -, hd, hf⟩ := fetch_cases s
  · exact absurd hnil hne
  · rw [hd] at h
    cases h
  · rw [hd] at h
    cases h
    rw [step, hf]

theorem step_of_idle {s : State} (h : s.request = []) : step s = .next s := by
  simp only [step, fetch, h]

/-- Settles O50: `step_of_decode` and `step_of_decode_error`. -/
theorem stepRunsTheDecodedOperation : Obligations.StepRunsTheDecodedOperation := by
  unfold Obligations.StepRunsTheDecodedOperation
  exact fun s => ⟨fun i rest => step_of_decode, fun e => step_of_decode_error⟩

/-- Settles O51: `step_of_idle`. -/
theorem idleStepChangesNothing : Obligations.IdleStepChangesNothing := by
  unfold Obligations.IdleStepChangesNothing
  exact fun s => step_of_idle

/-- Settles O52: the request bytes are the two encodings, taken off one at a time (`decodeOfEncodeIsTheInstruction`), and
the first operation leaves the second issued (`exec_frame`). -/
theorem issuedOperationsRunInOrder : Obligations.IssuedOperationsRunInOrder := by
  unfold Obligations.IssuedOperationsRunInOrder
  intro s t i j hi hj hidle h
  obtain ⟨-, -, hrequest⟩ := exec_frame h
  have hone : (s.issue j).request = encode j := by rw [State.issue_request, hidle, List.nil_append]
  have htwo : ((s.issue i).issue j).request = encode i ++ encode j := by
    rw [State.issue_request, State.issue_request, hidle, List.nil_append]
  constructor
  · rw [step_of_decode (htwo ▸ decodeOfEncodeIsTheInstruction i (encode j) hi), ← h, ← hone]
    rfl
  · have hdecode := decodeOfEncodeIsTheInstruction j [] hj
    rw [List.append_nil, ← hone, ← hrequest] at hdecode
    exact step_of_decode hdecode

/-- Settles O56: an operation keeps the configuration (`exec_frame`). -/
theorem configurationIsConstant : Obligations.ConfigurationIsConstant := by
  unfold Obligations.ConfigurationIsConstant
  intro s t h
  obtain ⟨-, rfl⟩ | ⟨i, rest, -, hexec⟩ := step_cases h
  · rfl
  · obtain ⟨-, hcfg, -⟩ := exec_frame hexec
    exact hcfg

/-- Settles O57: an operation keeps the invariant (`exec_keeps_inv`), which does not look at the operations issued. -/
theorem stepKeepsTheBufferWithinCapacity : Obligations.StepKeepsTheBufferWithinCapacity := by
  unfold Obligations.StepKeepsTheBufferWithinCapacity
  intro s t hinv h
  obtain ⟨-, rfl⟩ | ⟨i, rest, -, hexec⟩ := step_cases h
  · exact hinv
  · exact exec_keeps_inv (s := { s with request := rest }) ⟨hinv.memory, hinv.capacity⟩ hexec

end Sys2Proof.Machine
end
